-- ==== Sys2Proof/Word.lean ====
section
/-! DEFINITION. The word types of the OPT4048 codec block (spec rules R7, R9, R12, R21): every integer is an
unsigned field of an exact width, and a value of the numeric format is a binary64 datum. -/

namespace Sys2Proof

/-- Exponent of a channel record or a threshold word, `EW` = 4 bits (R7). -/
abbrev Exponent := BitVec 4
/-- Channel mantissa, `MW` = 20 bits (R7). -/
abbrev Mantissa := BitVec 20
/-- Threshold mantissa, `TMW` = 12 bits (R7). -/
abbrev ThrMantissa := BitVec 12
/-- The rolling sample counter (`CW`) or the integrity code (`KW`), 4 bits each (R7). -/
abbrev Nibble := BitVec 4
/-- A threshold register word, 16 bits (R49). -/
abbrev RegWord := BitVec 16
/-- A channel record, 4 bytes (R48). -/
abbrev ChanRecord := BitVec 32
/-- A frame: the 16-byte burst of four channel records (R50). -/
abbrev Frame := BitVec 128
/-- The operand of THR_ENC, 32 bits unsigned (R7). -/
abbrev ThrValue := BitVec 32
/-- A reconstructed channel code (`CODEW`) or a decoded threshold (`TVALW`), 35 bits (R7, D13, D14). -/
abbrev Code := BitVec 35
/-- The 3-bit status of a response (R24). -/
abbrev StatusCode := BitVec 3
/-- A byte of a buffer (R10). -/
abbrev Byte := BitVec 8

/-- Four like things in channel-index order 0, 1, 2, 3 (R3, R14 "ordered 4-tuple"). -/
structure Quad (α : Type) where
  c0 : α
  c1 : α
  c2 : α
  c3 : α
  deriving DecidableEq, Repr, Inhabited

/-- A datum of IEEE 754 binary64, the default of the `FP` parameter (R7, D16).
The block never looks at the bits of a value, so the type is the set of data and not an encoding:
one NaN (log entry 3), two infinities, and the finite data with their sign, biased exponent 0 to 2046 and 52-bit fraction. -/
inductive Fp64 where
  | nan
  | inf (neg : Bool)
  | finite (neg : Bool) (exp : Fin 2047) (frac : BitVec 52)
  deriving DecidableEq, Repr, Inhabited

end Sys2Proof
end

