-- ==== Sys2Proof/Config.lean ====
section
/-! DEFINITION. What is fixed when the block is built (R8, R25): the parameters `MATRIX`, `FP` and `NARROW32`. -/

namespace Sys2Proof

/-- The parameter `FP`: the operations of a numeric format (R8, R11).
Claims may use any instance; the machine of Machine/Dispatch.lean runs the default, binary64 (R7). -/
structure Fp (α : Type) where
  /-- the format's +0, which R22 writes into unproduced fields -/
  zero : α
  fadd : α → α → α
  fsub : α → α → α
  fmul : α → α → α
  fdiv : α → α → α
  fle : α → α → Bool
  fgt : α → α → Bool
  feq : α → α → Bool
  /-- neither an infinity nor a NaN -/
  finite : α → Bool
  ofnat : Nat → α
  /-- `ofdec n p` is the format's value of the decimal constant n · 10^(-p) -/
  ofdec : Nat → Nat → α

/-- The four coefficients of one channel: `m{i}x`, `m{i}y`, `m{i}z`, `m{i}l` (R78). -/
structure Weights (α : Type) where
  x : α
  y : α
  z : α
  l : α
  deriving DecidableEq, Repr, Inhabited

/-- `MATRIX`: the rows of channels 0 to 3; `m{i}{j}` is row i, column j (R78). -/
abbrev CalMatrix (α : Type) := Quad (Weights α)

/-- The three open parameters of R8, as the model's functions take them. -/
structure Params (α : Type) where
  fp : Fp α
  matrix : CalMatrix α
  narrow32 : Bool

/-- The parameters that are plain data, for a block whose format is binary64.
A block keeps them for good: no request and no reset writes them (R25, R27). -/
structure Build where
  matrix : CalMatrix Fp64
  narrow32 : Bool
  deriving DecidableEq, Repr

/-- The coefficients of the block that `State.reset` describes: the spec gives none (R78, D17), so this is a free value
with no body (log entry 2). -/
opaque Config.matrix : CalMatrix Fp64

/-- `NARROW32`: the default that R7 gives (log entry 8). Every statement ranges over both values, since it ranges over all states. -/
def Config.narrow32 : Bool := false

end Sys2Proof
end

