-- ==== Sys2Proof/Syntax.lean ====
section
/-! DEFINITION. The request and response records (R21), the instructions (one constructor per row of the opcode table,
R44), and what the host can do between two steps (R53, R103). -/

namespace Sys2Proof

/-- The request record `REQ` (R21, R43): the record itself is the encoding, there is no packed request word.
The spec's field `rec` is named `record` here. -/
structure Request (α : Type) where
  op : BitVec 4
  e : Exponent
  m : Mantissa
  m12 : ThrMantissa
  c : Nibble
  k : Nibble
  word : RegWord
  record : ChanRecord
  frame : Frame
  v : ThrValue
  ch : Quad Code
  cx : α
  cy : α
  deriving DecidableEq, Repr

/-- The response record (R21). -/
structure Response (α : Type) where
  status : StatusCode
  e : Exponent
  m : Mantissa
  m12 : ThrMantissa
  c : Nibble
  k : Nibble
  ok : Bool
  word : RegWord
  val : Code
  code : Quad Code
  X : α
  Y : α
  Z : α
  L : α
  cx : α
  cy : α
  lux : α
  valid : Bool
  cct : α
  deriving DecidableEq, Repr

/-- An operation with the operands it reads (R44): one constructor per row of spec/opcode_table.json. -/
inductive Instr where
  | pack (e : Exponent) (m12 : ThrMantissa)
  | unpack (word : RegWord)
  | deframe (record : ChanRecord)
  | crc4 (e : Exponent) (m : Mantissa) (c : Nibble)
  | verify (e : Exponent) (m : Mantissa) (c : Nibble) (k : Nibble)
  | recon (e : Exponent) (m : Mantissa)
  | channels (frame : Frame)
  | thrEnc (v : ThrValue)
  | thrDec (word : RegWord)
  | matmul (ch : Quad Code)
  | color (ch : Quad Code)
  | cct (cx cy : Fp64)
  /-- a reserved code 0xC to 0xF; `low` is `op[1:0]` (R46, log entry 14) -/
  | rsvd (low : BitVec 2)
  deriving DecidableEq, Repr

/-- The integer operand fields of a request (R21). -/
inductive IntOperand where
  | e | m | m12 | c | k | word | record | frame | v | ch0 | ch1 | ch2 | ch3
  deriving DecidableEq, Repr

/-- The `FP` operand fields of a request (R21). -/
inductive FpOperand where
  | cx | cy
  deriving DecidableEq, Repr

/-- An operand field of a request. -/
inductive ReqField where
  | int (f : IntOperand)
  | fp (f : FpOperand)
  deriving DecidableEq, Repr

/-- The integer fields of a response (R21). -/
inductive IntResult where
  | status | e | m | m12 | c | k | ok | word | val | code0 | code1 | code2 | code3 | valid
  deriving DecidableEq, Repr

/-- The `FP` fields of a response (R21). -/
inductive FpResult where
  | X | Y | Z | L | cx | cy | lux | cct
  deriving DecidableEq, Repr

/-- A field of a response. -/
inductive RspField where
  | int (f : IntResult)
  | fp (f : FpResult)
  deriving DecidableEq, Repr

/-- One `field=value` of a request line (R53). Numbers are unbounded here, as a host may hold them; one that does not
fit its field has no request (D28, log entries 10 and 12). -/
inductive Setting where
  /-- `field=number` -/
  | num (f : IntOperand) (n : Nat)
  /-- `field=literal` of an `FP` operand -/
  | lit (f : FpOperand) (x : Fp64)
  /-- `field=$f`: the host copies a field of the previous response (R20, R53), which the model reads in `RSP` (after a reset too:
  log entry 17) -/
  | copy (f : IntOperand) (src : IntResult)
  /-- `field=$f` of an `FP` operand -/
  | copyFp (f : FpOperand) (src : FpResult)
  /-- `frame=` a byte buffer of the transport, byte 0 first (R10, R30, R34) -/
  | buffer (bytes : List Byte)
  deriving DecidableEq, Repr

/-- What the host does next (R103; its tests between requests, R53). -/
inductive HostAction where
  /-- issues a request, any field values -/
  | request (r : Request Fp64)
  /-- issues the request of one assembler line: the code `op`, then its settings; every other field is 0 (R53) -/
  | line (op : BitVec 4) (settings : List Setting)
  /-- the host's test `$status = OK`: when it fails, the host leaves out its next `n` actions (R53, LIGHT; log entries 11 and 17) -/
  | skipUnlessOk (n : Nat)
  /-- the reset event, between requests (R96) -/
  | reset
  /-- reads `RSP` (R103) -/
  | readRsp
  /-- breaks host duty H-5: a second request while one is in flight (R99, D1) -/
  | overlapRequest (first second : Request Fp64)
  /-- resets during a request (R96, D32) -/
  | overlapReset (first : Request Fp64)
  deriving DecidableEq, Repr

end Sys2Proof
end

