-- ==== Sys2Proof/WellFormed.lean ====
section
/-! DEFINITION. Which terms the block's boundary takes. Every `Instr` and every `Request` is well formed, because each
operand field is exactly as wide as its range (R21, D28). A host's request line holds unbounded numbers and byte buffers,
and those are checked here (R34, D28, D37). -/

namespace Sys2Proof

/-- Width of an integer operand field in bits (R21). -/
def IntOperand.width : IntOperand → Nat
  | .e => 4
  | .m => 20
  | .m12 => 12
  | .c => 4
  | .k => 4
  | .word => 16
  | .record => 32
  | .frame => 128
  | .v => 32
  | .ch0 => 35
  | .ch1 => 35
  | .ch2 => 35
  | .ch3 => 35

/-- A setting the boundary can take whatever the response is: a number fits its field, a buffer has 16 bytes.
Whether a copied response field fits is known only when the host copies it. -/
def Setting.wellFormed : Setting → Bool
  | .num f n => decide (n < 2 ^ f.width)
  | .lit _ _ => true
  | .copy _ _ => true
  | .copyFp _ _ => true
  | .buffer bytes => bytes.length == 16

/-- A host action the block accepts: well-formed settings, and one request in flight (R96, D1). -/
def HostAction.wellFormed : HostAction → Bool
  | .request _ => true
  | .line _ settings => settings.all Setting.wellFormed
  | .skipUnlessOk _ => true
  | .reset => true
  | .readRsp => true
  | .overlapRequest _ _ => false
  | .overlapReset _ => false

end Sys2Proof
end

