-- ==== Sys2Proof/Decode.lean ====
section
/-! DEFINITION. Decoding and encoding of requests (R43 to R46), the opcode table as data, and the host's table word.
Decoding is total: each of the 16 values of `op` names one row, so nothing is rejected (R45). -/

namespace Sys2Proof

/-- A row of the opcode table: a request is the row's when `op` masked is the pattern (R44). -/
structure OpRow where
  mnemonic : String
  pattern : BitVec 4
  mask : BitVec 4
  deriving DecidableEq, Repr

/-- The opcode map of R44, in its order. -/
def opTable : List OpRow :=
  [⟨"PACK", 0x0, 0xF⟩, ⟨"UNPACK", 0x1, 0xF⟩, ⟨"DEFRAME", 0x2, 0xF⟩, ⟨"CRC4", 0x3, 0xF⟩, ⟨"VERIFY", 0x4, 0xF⟩,
   ⟨"RECON", 0x5, 0xF⟩, ⟨"CHANNELS", 0x6, 0xF⟩, ⟨"THR_ENC", 0x7, 0xF⟩, ⟨"THR_DEC", 0x8, 0xF⟩, ⟨"MATMUL", 0x9, 0xF⟩,
   ⟨"COLOR", 0xA, 0xF⟩, ⟨"CCT", 0xB, 0xF⟩, ⟨"RSVD", 0xC, 0xC⟩]

/-- Does `op` belong to this row? -/
def OpRow.covers (row : OpRow) (op : BitVec 4) : Bool :=
  op &&& row.mask == row.pattern

/-- The instruction a request stands for: `op` selects the operation, which takes only the fields R44 names (R21, R44).
The last arm is 0xF, the one code left. -/
def decode (r : Request Fp64) : Instr :=
  match r.op with
  | 0x0#4 => .pack r.e r.m12
  | 0x1#4 => .unpack r.word
  | 0x2#4 => .deframe r.record
  | 0x3#4 => .crc4 r.e r.m r.c
  | 0x4#4 => .verify r.e r.m r.c r.k
  | 0x5#4 => .recon r.e r.m
  | 0x6#4 => .channels r.frame
  | 0x7#4 => .thrEnc r.v
  | 0x8#4 => .thrDec r.word
  | 0x9#4 => .matmul r.ch
  | 0xA#4 => .color r.ch
  | 0xB#4 => .cct r.cx r.cy
  | 0xC#4 => .rsvd 0
  | 0xD#4 => .rsvd 1
  | 0xE#4 => .rsvd 2
  | _ => .rsvd 3

/-- The request with code `op` and every operand field 0 (a field the line does not set, spec file 95 section 3). -/
def blankRequest (op : BitVec 4) : Request Fp64 :=
  { op := op, e := 0, m := 0, m12 := 0, c := 0, k := 0, word := 0, record := 0, frame := 0, v := 0,
    ch := ⟨0, 0, 0, 0⟩, cx := .finite false 0 0, cy := .finite false 0 0 }

/-- The request of an instruction: its code and its operands, every field it does not read 0 (R44). -/
def encode : Instr → Request Fp64
  | .pack e m12 => { blankRequest 0x0 with e := e, m12 := m12 }
  | .unpack word => { blankRequest 0x1 with word := word }
  | .deframe record => { blankRequest 0x2 with record := record }
  | .crc4 e m c => { blankRequest 0x3 with e := e, m := m, c := c }
  | .verify e m c k => { blankRequest 0x4 with e := e, m := m, c := c, k := k }
  | .recon e m => { blankRequest 0x5 with e := e, m := m }
  | .channels frame => { blankRequest 0x6 with frame := frame }
  | .thrEnc v => { blankRequest 0x7 with v := v }
  | .thrDec word => { blankRequest 0x8 with word := word }
  | .matmul ch => { blankRequest 0x9 with ch := ch }
  | .color ch => { blankRequest 0xA with ch := ch }
  | .cct cx cy => { blankRequest 0xB with cx := cx, cy := cy }
  | .rsvd low => blankRequest (0b11#2 ++ low)

/-- The mnemonic of R44. -/
def Instr.mnemonic : Instr → String
  | .pack _ _ => "PACK"
  | .unpack _ => "UNPACK"
  | .deframe _ => "DEFRAME"
  | .crc4 _ _ _ => "CRC4"
  | .verify _ _ _ _ => "VERIFY"
  | .recon _ _ => "RECON"
  | .channels _ => "CHANNELS"
  | .thrEnc _ => "THR_ENC"
  | .thrDec _ => "THR_DEC"
  | .matmul _ => "MATMUL"
  | .color _ => "COLOR"
  | .cct _ _ => "CCT"
  | .rsvd _ => "RSVD"

/-- The "operands read" column of R44. -/
def Instr.operands : Instr → List ReqField
  | .pack _ _ => [.int .e, .int .m12]
  | .unpack _ => [.int .word]
  | .deframe _ => [.int .record]
  | .crc4 _ _ _ => [.int .e, .int .m, .int .c]
  | .verify _ _ _ _ => [.int .e, .int .m, .int .c, .int .k]
  | .recon _ _ => [.int .e, .int .m]
  | .channels _ => [.int .frame]
  | .thrEnc _ => [.int .v]
  | .thrDec _ => [.int .word]
  | .matmul _ => [.int .ch0, .int .ch1, .int .ch2, .int .ch3]
  | .color _ => [.int .ch0, .int .ch1, .int .ch2, .int .ch3]
  | .cct _ _ => [.fp .cx, .fp .cy]
  | .rsvd _ => []

/-- The "results written" column of R44, without `status`, which every request writes. -/
def Instr.results : Instr → List RspField
  | .pack _ _ => [.int .word]
  | .unpack _ => [.int .e, .int .m12]
  | .deframe _ => [.int .e, .int .m, .int .c, .int .k]
  | .crc4 _ _ _ => [.int .k]
  | .verify _ _ _ _ => [.int .k, .int .ok]
  | .recon _ _ => [.int .val]
  | .channels _ => [.int .code0, .int .code1, .int .code2, .int .code3, .int .ok]
  | .thrEnc _ => [.int .e, .int .m12, .int .word]
  | .thrDec _ => [.int .val]
  | .matmul _ => [.fp .X, .fp .Y, .fp .Z, .fp .L]
  | .color _ => [.fp .cx, .fp .cy, .fp .lux, .int .valid]
  | .cct _ _ => [.fp .cct]
  | .rsvd _ => []

/-- The request of a table word: bits 3:0 are `op`, every operand is 0.
Bits above bit 3 are no field of a request (R43) and are not read (DESIGN CHOICE, log entry 5). -/
def tableRequest (nbits w : Nat) : Request Fp64 :=
  blankRequest (BitVec.ofNat 4 (w % 2 ^ nbits))

/-- The instruction the decoder reads from a word numbered as spec/opcode_table.json numbers it. -/
def decodeTableWord (nbits w : Nat) : Option Instr :=
  some (decode (tableRequest nbits w))

end Sys2Proof
end

