-- ==== Sys2Proof/Machine/State.lean ====
section
/-! DEFINITION. The state of the block and its host, the reasons a step can stop, and the state after reset. -/

namespace Sys2Proof.Machine

/-- The block raises no trap and no operation stops it: every error is a status in the response (R84, R88).
So there is no fault, and the type has no constructor: claiming that a step faults is claiming False (log entry 13). -/
inductive Fault where
  deriving DecidableEq, Repr

/-- Why the model does not accept what the host presents. The block itself refuses no request (R90): each reason below is
about a presentation that is no request, or one the spec tells a model to refuse. -/
inductive Refusal where
  /-- raised by exec for an instruction without a meaning; safe. No arm of this model raises it. -/
  | notModelled (mnemonic : String)
  /-- raised when a host's line gives an operand field a number that does not fit it (D28, R99 H-7, log entry 10); safe:
  R21 makes such a request impossible. -/
  | operandOutOfRange (field : IntOperand) (value : Nat)
  /-- raised when a host presents a frame buffer that is not 16 bytes long (R34, D37); safe. -/
  | frameSize (bytes : Nat)
  /-- raised when a host presents a second request while one is in flight (R99 H-5, D1; log entry 9); safe. -/
  | overlappingRequests
  /-- raised when a host asserts reset during a request (R96, D32; log entry 9); safe. -/
  | resetDuringRequest
  deriving DecidableEq, Repr

/-- A response with status NONE and every other field 0, where `zero` is the format's +0 (R22, R27). -/
def blankResponse {α : Type} (zero : α) : Response α :=
  { status := 0, e := 0, m := 0, m12 := 0, c := 0, k := 0, ok := false, word := 0, val := 0,
    code := ⟨0, 0, 0, 0⟩, X := zero, Y := zero, Z := zero, L := zero, cx := zero, cy := zero, lux := zero,
    valid := false, cct := zero }

/-- `rsp` is the block's only architectural state, the response latch `RSP` (R18). The other two fields are the model's own:
`build` carries the parameters of R8, which no step writes (log entry 1), and `host` holds what the host does next,
oldest first (R16, R102, log entry 4). -/
structure State where
  rsp : Response Fp64
  build : Build
  host : List HostAction
  deriving DecidableEq, Repr

/-- The machine right after reset: `RSP` as R27 gives it, the block as it was built, no request issued yet. -/
def State.reset : State :=
  { rsp := blankResponse (.finite false 0 0),
    build := { matrix := Config.matrix, narrow32 := Config.narrow32 },
    host := [] }

end Sys2Proof.Machine
end

