-- ==== Sys2Proof/Machine/Flags.lean ====
section
/-! DEFINITION. The status of a response, the block's only flag, and the two 1-bit fields that repeat it (R24). -/

namespace Sys2Proof.Machine

/-- No request has completed since reset. -/
def statusNone : StatusCode := 0
/-- The operation completed with a result. -/
def statusOk : StatusCode := 1
/-- A received integrity code differs from the recomputed one (`IntegrityMismatch`). -/
def statusIntegrityMismatch : StatusCode := 2
/-- X + Y + Z is not greater than 0 (`DegenerateColorSum`). -/
def statusDegenerateSum : StatusCode := 3
/-- No colour temperature is defined (`UndefinedChromaticity`). -/
def statusUndefChroma : StatusCode := 4
/-- A reserved operation code. -/
def statusIllegalOp : StatusCode := 5

/-- The status of a comparison of integrity codes (R63, R69). -/
def integrityStatus (pass : Bool) : StatusCode :=
  if pass then statusOk else statusIntegrityMismatch

end Sys2Proof.Machine
end

