-- ==== Sys2Proof/Machine/Float.lean ====
section
/-! DEFINITION. Two instances of the `FP` parameter (R8, R11, D16): IEEE 754 binary64 with round to nearest even, which is the
default the machine runs (log entries 3, 6 and 7), and exact arithmetic over any ordered field, which is the reference
semantics. -/

namespace Sys2Proof

/-- The +0 of binary64. -/
def Fp64.posZero : Fp64 := .finite false 0 0

/-- 2^n, in factors small enough that Lean's evaluators take them without a raised limit. -/
def pow2 (n : Nat) : Nat := (2 ^ 64) ^ (n / 64) * 2 ^ (n % 64)

/-- `f n`, with `n` evaluated first when Lean's kernel computes it: it would carry an unevaluated `n` to each place `f` uses it. -/
def evalNat {α : Type} (n : Nat) (f : Nat → α) : α :=
  match n with
  | 0 => f 0
  | m + 1 => f (m + 1)

/-- `f b`, with `b` evaluated first. -/
def evalBool {α : Type} (b : Bool) (f : Bool → α) : α :=
  match b with
  | true => f true
  | false => f false

/-- The significand of a finite datum, in units of 2^(max(exp,1) - 1075). -/
def Fp64.significand (exp : Fin 2047) (frac : BitVec 52) : Nat :=
  if exp.val = 0 then frac.toNat else 2 ^ 52 + frac.toNat

/-- The magnitude of a finite datum as a multiple of 2^-1074, the least positive binary64 number. -/
def Fp64.magnitude (exp : Fin 2047) (frac : BitVec 52) : Nat :=
  pow2 (exp.val - 1) * Fp64.significand exp frac

/-- The signed value of a finite datum as a multiple of 2^-1074. -/
def Fp64.scaled (neg : Bool) (exp : Fin 2047) (frac : BitVec 52) : Int :=
  if neg then -(Fp64.magnitude exp frac : Int) else (Fp64.magnitude exp frac : Int)

/-- The number a datum stands for; an infinity or a NaN stands for none. -/
def Fp64.value? : Fp64 → Option Rat
  | .nan => none
  | .inf _ => none
  | .finite neg exp frac => some ((Fp64.scaled neg exp frac : Rat) / 2 ^ 1074)

/-- The integer nearest to n / d, a tie going to the even one (d > 0). -/
def nearestEven (n d : Nat) : Nat :=
  let q := n / d
  let r := n % d
  if 2 * r < d then q
  else if d < 2 * r then q + 1
  else if q % 2 = 0 then q
  else q + 1

/-- `Nat.log2`, 64 places at a time, since Lean's kernel takes a step for each place of `Nat.log2`. -/
def log2Fast : (fuel n : Nat) → Nat
  | 0, n => n.log2
  | fuel + 1, n => if n < 2 ^ 64 then n.log2 else evalNat (n / 2 ^ 64) fun m => 64 + log2Fast fuel m

/-- How many binary places above 2^-1074 the last place of n / d · 2^-1074 lies in binary64: 0 up to 2^53, then one more for each
doubling. -/
def Fp64.shiftOf (n d : Nat) : Nat :=
  evalNat (n / d) fun f => log2Fast 64 f - 52

/-- The binary64 datum nearest to ± n / d · 2^-1074 for n > 0, ties to even, overflow to infinity.
Exponent and fraction stand in one number, so a significand that rounds up to 2^53 carries into the exponent. -/
def Fp64.roundPositive (neg : Bool) (n d : Nat) : Fp64 :=
  evalBool neg fun neg =>
  evalNat (Fp64.shiftOf n d) fun shift =>
  evalNat (shift * 2 ^ 52 + nearestEven n (d * pow2 shift)) fun packed =>
  if h : packed < 2047 * 2 ^ 52 then
    .finite neg ⟨packed / 2 ^ 52, (Nat.div_lt_iff_lt_mul (by decide)).mpr h⟩ (BitVec.ofNat 52 packed)
  else .inf neg

/-- The binary64 datum nearest to ± n / d · 2^-1074 (R7; properties of binary64: G2). Zero is a case of its own, so that an
evaluation stops at a number it does not know. -/
def Fp64.roundScaled (neg : Bool) (n d : Nat) : Fp64 :=
  match n with
  | 0 => .finite neg 0 0
  | n' + 1 => Fp64.roundPositive neg (n' + 1) d

/-- The sign bit changed. -/
def Fp64.neg : Fp64 → Fp64
  | .nan => .nan
  | .inf s => .inf (!s)
  | .finite s exp frac => .finite (!s) exp frac

/-- Addition, rounded once. An exact zero sum is -0 only when both operands are negative zeros. -/
def Fp64.add : Fp64 → Fp64 → Fp64
  | .nan, _ => .nan
  | .inf _, .nan => .nan
  | .inf s, .inf t => if s = t then .inf s else .nan
  | .inf s, .finite _ _ _ => .inf s
  | .finite _ _ _, .nan => .nan
  | .finite _ _ _, .inf t => .inf t
  | .finite s e f, .finite t g h =>
    let sum := Fp64.scaled s e f + Fp64.scaled t g h
    if sum = 0 then .finite (s && t) 0 0 else Fp64.roundScaled (decide (sum < 0)) sum.natAbs 1

/-- Subtraction, rounded once. -/
def Fp64.sub (a b : Fp64) : Fp64 := Fp64.add a b.neg

/-- Multiplication, rounded once. Infinity times zero is NaN. -/
def Fp64.mul : Fp64 → Fp64 → Fp64
  | .nan, _ => .nan
  | .inf _, .nan => .nan
  | .inf s, .inf t => .inf (s ^^ t)
  | .inf s, .finite t g h => if Fp64.magnitude g h = 0 then .nan else .inf (s ^^ t)
  | .finite _ _ _, .nan => .nan
  | .finite s e f, .inf t => if Fp64.magnitude e f = 0 then .nan else .inf (s ^^ t)
  | .finite s e f, .finite t g h =>
    Fp64.roundScaled (s ^^ t) (Fp64.magnitude e f * Fp64.magnitude g h) (pow2 1074)

/-- Division, rounded once. 0/0 and infinity/infinity are NaN, another finite number over zero is an infinity. -/
def Fp64.div : Fp64 → Fp64 → Fp64
  | .nan, _ => .nan
  | .inf _, .nan => .nan
  | .inf _, .inf _ => .nan
  | .inf s, .finite t _ _ => .inf (s ^^ t)
  | .finite _ _ _, .nan => .nan
  | .finite s _ _, .inf t => .finite (s ^^ t) 0 0
  | .finite s e f, .finite t g h =>
    if Fp64.magnitude g h = 0 then
      if Fp64.magnitude e f = 0 then .nan else .inf (s ^^ t)
    else Fp64.roundScaled (s ^^ t) (pow2 1074 * Fp64.magnitude e f) (Fp64.magnitude g h)

/-- The comparison ≤, false when an operand is NaN; -0 and +0 compare equal. -/
def Fp64.le : Fp64 → Fp64 → Bool
  | .nan, _ => false
  | .inf _, .nan => false
  | .inf s, .inf t => s || !t
  | .inf s, .finite _ _ _ => s
  | .finite _ _ _, .nan => false
  | .finite _ _ _, .inf t => !t
  | .finite s e f, .finite t g h => decide (Fp64.scaled s e f ≤ Fp64.scaled t g h)

/-- The comparison >, false when an operand is NaN. -/
def Fp64.gt (a b : Fp64) : Bool := Fp64.le b a && !Fp64.le a b

/-- The comparison =, false when an operand is NaN. -/
def Fp64.eq (a b : Fp64) : Bool := Fp64.le a b && Fp64.le b a

/-- Neither an infinity nor a NaN. -/
def Fp64.isFinite : Fp64 → Bool
  | .nan => false
  | .inf _ => false
  | .finite _ _ _ => true

/-- The sign bit, of a zero too; the one NaN of the model has none (log entry 3). -/
def Fp64.isNegative : Fp64 → Bool
  | .nan => false
  | .inf s => s
  | .finite s _ _ => s

/-- The binary64 value of a natural number (R80). -/
def Fp64.ofNat (n : Nat) : Fp64 := Fp64.roundScaled false (pow2 1074 * n) 1

/-- The binary64 value nearest to the decimal n · 10^(-places) (R83). -/
def Fp64.ofDec (n places : Nat) : Fp64 := Fp64.roundScaled false (pow2 1074 * n) (10 ^ places)

/-- The datum of a 64-bit interchange encoding, for a host that holds values as bits (general knowledge, G2). -/
def Fp64.ofBits (b : BitVec 64) : Fp64 :=
  let exp := (b.extractLsb' 52 11).toNat
  let frac := b.extractLsb' 0 52
  if h : exp < 2047 then .finite b.msb ⟨exp, h⟩ frac
  else if frac = 0 then .inf b.msb
  else .nan

/-- The default of the parameter `FP`: binary64, round to nearest even, no fused multiply-add (R7, D16). -/
def Fp.binary64 : Fp Fp64 where
  zero := Fp64.posZero
  fadd := Fp64.add
  fsub := Fp64.sub
  fmul := Fp64.mul
  fdiv := Fp64.div
  fle := Fp64.le
  fgt := Fp64.gt
  feq := Fp64.eq
  finite := Fp64.isFinite
  ofnat := Fp64.ofNat
  ofdec := Fp64.ofDec

/-- The reference semantics of `FP`: exact arithmetic, every value finite, decimals exact (R11, D16).
The spec's is the field of the reals; the rationals give the same results on rational data and can be evaluated. -/
def Fp.exact (K : Type) [Field K] [LinearOrder K] : Fp K where
  zero := 0
  fadd a b := a + b
  fsub a b := a - b
  fmul a b := a * b
  fdiv a b := a / b
  fle a b := decide (a ≤ b)
  fgt a b := decide (b < a)
  feq a b := decide (a = b)
  finite _ := true
  ofnat n := (n : K)
  ofdec n places := (n : K) / 10 ^ places

end Sys2Proof
end

