-- ==== Sys2Proof/Machine/Ops.lean ====
section
/-! DEFINITION. The shared operations on the response latch: the zero response, a result, an error, the latching of a
response, and the reset event. The block has no memory and no registers (R19, R28), so these are all it does to its state. -/

namespace Sys2Proof.Machine

/-- `zero_response` of R23: status 0 and every other field 0 or +0. -/
def zeroResponse {α : Type} (P : Params α) : Response α := blankResponse P.fp.zero

/-- The response an operation with a result starts from: status OK, every field it does not write 0 (R22). -/
def okResponse {α : Type} (P : Params α) : Response α := { zeroResponse P with status := statusOk }

/-- How the block reports an error: in band, by a status, with no partial result (R22, R84). This stands where another
machine takes an exception (R88). -/
def errorResponse {α : Type} (P : Params α) (status : StatusCode) : Response α :=
  { zeroResponse P with status := status }

/-- The parameters of the block: binary64 (log entry 6), and the matrix and the width flag it was built with (R8). -/
def State.params (s : State) : Params Fp64 :=
  { fp := Fp.binary64, matrix := s.build.matrix, narrow32 := s.build.narrow32 }

/-- The end of every request: the whole of `RSP` is written at once, nothing else changes (R22, R23, R36). -/
def State.latch (s : State) (r : Response Fp64) : Host.Outcome State Fault Refusal :=
  .next { s with rsp := r }

/-- The reset event: `RSP` takes its reset value, the parameters stay (R27, R96). -/
def State.resetBlock (s : State) : State :=
  { s with rsp := zeroResponse s.params }

/-- Exact, or reduced modulo 2^32 when the block is built with `NARROW32` (R66, R72, D13, D14). -/
def narrow (narrow32 : Bool) (full : Code) : Code :=
  if narrow32 then (full.extractLsb' 0 32).setWidth 35 else full

end Sys2Proof.Machine
end

