-- ==== Sys2Proof/Machine/Operands.lean ====
section
/-! DEFINITION. Operand forms: the bytes, records and registers of a frame (R29 to R32), the fields of the request and response
records, and the request of a host's line (R53). -/

namespace Sys2Proof.Machine

/-- `Byte(frame, k) = frame[127-8k : 120-8k]`, k = 0 to 15 (R30). -/
def frameByte (frame : Frame) (k : Nat) : Byte := frame.extractLsb' (120 - 8 * k) 8

/-- `Record(frame, i) = frame[127-32i : 96-32i]`, i = 0 to 3 (R31). -/
def frameRecord (frame : Frame) (i : Nat) : ChanRecord := frame.extractLsb' (96 - 32 * i) 32

/-- The MSB register of a record (R32). -/
def msbReg (record : ChanRecord) : RegWord := record.extractLsb' 16 16

/-- The LSB register of a record (R32). -/
def lsbReg (record : ChanRecord) : RegWord := record.extractLsb' 0 16

/-- The 128-bit operand of a buffer, byte 0 in the highest bits (R30). Meant for 16 bytes; R34 refuses any other number. -/
def frameOfBytes (bytes : List Byte) : Frame :=
  bytes.foldl (fun frame b => frame <<< 8 ||| b.setWidth 128) 0

end Sys2Proof.Machine

namespace Sys2Proof

/-- The number in an integer operand field of a request. -/
def Request.int {α : Type} (r : Request α) : IntOperand → Nat
  | .e => r.e.toNat
  | .m => r.m.toNat
  | .m12 => r.m12.toNat
  | .c => r.c.toNat
  | .k => r.k.toNat
  | .word => r.word.toNat
  | .record => r.record.toNat
  | .frame => r.frame.toNat
  | .v => r.v.toNat
  | .ch0 => r.ch.c0.toNat
  | .ch1 => r.ch.c1.toNat
  | .ch2 => r.ch.c2.toNat
  | .ch3 => r.ch.c3.toNat

/-- The value in an `FP` operand field of a request. -/
def Request.fp {α : Type} (r : Request α) : FpOperand → α
  | .cx => r.cx
  | .cy => r.cy

/-- Do two requests hold the same in this operand field? -/
def Request.agreesAt {α : Type} [DecidableEq α] (r q : Request α) : ReqField → Bool
  | .int f => r.int f == q.int f
  | .fp f => r.fp f == q.fp f

/-- The number in an integer field of a response; a 1-bit field is 0 or 1. -/
def Response.int {α : Type} (r : Response α) : IntResult → Nat
  | .status => r.status.toNat
  | .e => r.e.toNat
  | .m => r.m.toNat
  | .m12 => r.m12.toNat
  | .c => r.c.toNat
  | .k => r.k.toNat
  | .ok => r.ok.toNat
  | .word => r.word.toNat
  | .val => r.val.toNat
  | .code0 => r.code.c0.toNat
  | .code1 => r.code.c1.toNat
  | .code2 => r.code.c2.toNat
  | .code3 => r.code.c3.toNat
  | .valid => r.valid.toNat

/-- The value in an `FP` field of a response. -/
def Response.fp {α : Type} (r : Response α) : FpResult → α
  | .X => r.X
  | .Y => r.Y
  | .Z => r.Z
  | .L => r.L
  | .cx => r.cx
  | .cy => r.cy
  | .lux => r.lux
  | .cct => r.cct

/-- Is this field of a response 0 (an `FP` field: the given zero)? -/
def Response.isZeroAt {α : Type} [DecidableEq α] (zero : α) (r : Response α) : RspField → Bool
  | .int f => r.int f == 0
  | .fp f => r.fp f == zero

/-- A request with one integer operand field set to the low bits of a number. -/
def Request.setInt {α : Type} (r : Request α) (f : IntOperand) (n : Nat) : Request α :=
  match f with
  | .e => { r with e := BitVec.ofNat 4 n }
  | .m => { r with m := BitVec.ofNat 20 n }
  | .m12 => { r with m12 := BitVec.ofNat 12 n }
  | .c => { r with c := BitVec.ofNat 4 n }
  | .k => { r with k := BitVec.ofNat 4 n }
  | .word => { r with word := BitVec.ofNat 16 n }
  | .record => { r with record := BitVec.ofNat 32 n }
  | .frame => { r with frame := BitVec.ofNat 128 n }
  | .v => { r with v := BitVec.ofNat 32 n }
  | .ch0 => { r with ch := { r.ch with c0 := BitVec.ofNat 35 n } }
  | .ch1 => { r with ch := { r.ch with c1 := BitVec.ofNat 35 n } }
  | .ch2 => { r with ch := { r.ch with c2 := BitVec.ofNat 35 n } }
  | .ch3 => { r with ch := { r.ch with c3 := BitVec.ofNat 35 n } }

/-- A request with one `FP` operand field set. -/
def Request.setFp {α : Type} (r : Request α) (f : FpOperand) (x : α) : Request α :=
  match f with
  | .cx => { r with cx := x }
  | .cy => { r with cy := x }

end Sys2Proof

namespace Sys2Proof.Machine

/-- A number given to an operand field: refused, never wrapped, when it does not fit (D28, R99 H-7). -/
def assign (r : Request Fp64) (f : IntOperand) (n : Nat) : Except Refusal (Request Fp64) :=
  if n < 2 ^ f.width then .ok (r.setInt f n) else .error (.operandOutOfRange f n)

/-- One setting of a host's line, where `rsp` is the response to the previous request (R53): `hostAct` gives it `RSP`
(log entry 17). -/
def applySetting (rsp : Response Fp64) (r : Request Fp64) : Setting → Except Refusal (Request Fp64)
  | .num f n => assign r f n
  | .lit f x => .ok (r.setFp f x)
  | .copy f src => assign r f (rsp.int src)
  | .copyFp f src => .ok (r.setFp f (rsp.fp src))
  | .buffer bytes =>
    if bytes.length = 16 then .ok { r with frame := frameOfBytes bytes } else .error (.frameSize bytes.length)

/-- All settings of a line, in order. -/
def applySettings (rsp : Response Fp64) (r : Request Fp64) : List Setting → Except Refusal (Request Fp64)
  | [] => .ok r
  | x :: xs =>
    match applySetting rsp r x with
    | .ok r' => applySettings rsp r' xs
    | .error why => .error why

end Sys2Proof.Machine
end

