-- ==== Sys2Proof/Machine/Bitfield.lean ====
section
/-! DEFINITION. The bitfield exponent-mantissa codec: PACK and UNPACK (spec file 40). -/

namespace Sys2Proof.Machine

/-- `pack(e, m) = {e, m} = (zext_16(e) << 12) | zext_16(m)`: exponent in bits 15:12, mantissa in bits 11:0 (R49, R54). -/
def pack (e : Exponent) (m12 : ThrMantissa) : RegWord := e.setWidth 16 <<< 12 ||| m12.setWidth 16

/-- The exponent of `unpack(w)`, `w[15:12]` (R55). -/
def unpackExponent (word : RegWord) : Exponent := word.extractLsb' 12 4

/-- The mantissa of `unpack(w)`, `w[11:0]` (R55). -/
def unpackMantissa (word : RegWord) : ThrMantissa := word.extractLsb' 0 12

/-- The response of PACK (R54). -/
def packResponse {α : Type} (P : Params α) (e : Exponent) (m12 : ThrMantissa) : Response α :=
  { okResponse P with word := pack e m12 }

/-- The response of UNPACK (R55). -/
def unpackResponse {α : Type} (P : Params α) (word : RegWord) : Response α :=
  { okResponse P with e := unpackExponent word, m12 := unpackMantissa word }

/-- PACK (R54). -/
def execPack (e : Exponent) (m12 : ThrMantissa) (s : State) : Host.Outcome State Fault Refusal :=
  s.latch (packResponse s.params e m12)

/-- UNPACK (R55). -/
def execUnpack (word : RegWord) (s : State) : Host.Outcome State Fault Refusal :=
  s.latch (unpackResponse s.params word)

end Sys2Proof.Machine
end

