-- ==== Sys2Proof/Machine/Colorimetry.lean ====
section
/-! DEFINITION. The 4x4 tristimulus transform, chromaticity and colour temperature: MATMUL, COLOR and CCT (spec file 45), over any
instance of the `FP` parameter, in the order the rules write (R83). -/

namespace Sys2Proof.Machine

/-- One column of the transform, added left to right (R79). -/
def weightedSum {α : Type} (F : Fp α) (c w : Quad α) : α :=
  F.fadd (F.fadd (F.fadd (F.fmul c.c0 w.c0) (F.fmul c.c1 w.c1)) (F.fmul c.c2 w.c2)) (F.fmul c.c3 w.c3)

/-- The channel codes as `FP` values (R80). -/
def codeValues {α : Type} (F : Fp α) (ch : Quad Code) : Quad α :=
  ⟨F.ofnat ch.c0.toNat, F.ofnat ch.c1.toNat, F.ofnat ch.c2.toNat, F.ofnat ch.c3.toNat⟩

/-- `matmul(ch)`: the tuple (X, Y, Z, L) (R79). -/
def matmul {α : Type} (F : Fp α) (M : CalMatrix α) (ch : Quad Code) : Weights α :=
  let c := codeValues F ch
  { x := weightedSum F c ⟨M.c0.x, M.c1.x, M.c2.x, M.c3.x⟩,
    y := weightedSum F c ⟨M.c0.y, M.c1.y, M.c2.y, M.c3.y⟩,
    z := weightedSum F c ⟨M.c0.z, M.c1.z, M.c2.z, M.c3.z⟩,
    l := weightedSum F c ⟨M.c0.l, M.c1.l, M.c2.l, M.c3.l⟩ }

/-- `sum = X + Y + Z` (R81). -/
def colorSum {α : Type} (F : Fp α) (t : Weights α) : α := F.fadd (F.fadd t.x t.y) t.z

/-- The reference point `xe` = 0.3320 (R82). -/
def mcCamyX {α : Type} (F : Fp α) : α := F.ofdec 3320 4

/-- The reference point `ye` = 0.1858 (R82). -/
def mcCamyY {α : Type} (F : Fp α) : α := F.ofdec 1858 4

/-- `437·n³ + 3601·n² + 6861·n + 5517`, with n³ as (n·n)·n, added left to right (R82, R83, D20). -/
def mcCamyCubic {α : Type} (F : Fp α) (n : α) : α :=
  let n2 := F.fmul n n
  let n3 := F.fmul n2 n
  F.fadd (F.fadd (F.fadd (F.fmul (F.ofnat 437) n3) (F.fmul (F.ofnat 3601) n2)) (F.fmul (F.ofnat 6861) n)) (F.ofnat 5517)

/-- Are both chromaticities exactly zero, the first test of CCT (R82)? -/
def bothZero {α : Type} (F : Fp α) (cx cy : α) : Bool := F.feq cx F.zero && F.feq cy F.zero

/-- The denominator `0.1858 − cy` (R82). -/
def cctDenominator {α : Type} (F : Fp α) (cy : α) : α := F.fsub (mcCamyY F) cy

/-- `n = (cx − 0.3320) / (0.1858 − cy)` (R82). -/
def cctRatio {α : Type} (F : Fp α) (cx cy : α) : α := F.fdiv (F.fsub cx (mcCamyX F)) (cctDenominator F cy)

/-- The response of MATMUL (R79). -/
def matmulResponse {α : Type} (P : Params α) (ch : Quad Code) : Response α :=
  let t := matmul P.fp P.matrix ch
  { okResponse P with X := t.x, Y := t.y, Z := t.z, L := t.l }

/-- The response of COLOR. The test is "sum > 0", so a NaN sum is degenerate (R81, D18); nothing is clamped (D29). -/
def colorResponse {α : Type} (P : Params α) (ch : Quad Code) : Response α :=
  let t := matmul P.fp P.matrix ch
  let sum := colorSum P.fp t
  if P.fp.fgt sum P.fp.zero then
    { okResponse P with cx := P.fp.fdiv t.x sum, cy := P.fp.fdiv t.y sum, lux := t.l, valid := true }
  else errorResponse P statusDegenerateSum

/-- The response of CCT: the sentinel 0 for two zeros, for an input that is not finite and for a zero denominator, in that
order; any other result is passed through (R82, D19). -/
def cctResponse {α : Type} (P : Params α) (cx cy : α) : Response α :=
  if bothZero P.fp cx cy then errorResponse P statusUndefChroma
  else if !P.fp.finite cx || !P.fp.finite cy then errorResponse P statusUndefChroma
  else if P.fp.feq (cctDenominator P.fp cy) P.fp.zero then errorResponse P statusUndefChroma
  else { okResponse P with cct := mcCamyCubic P.fp (cctRatio P.fp cx cy) }

/-- MATMUL (R79). -/
def execMatmul (ch : Quad Code) (s : State) : Host.Outcome State Fault Refusal :=
  s.latch (matmulResponse s.params ch)

/-- COLOR (R81). -/
def execColor (ch : Quad Code) (s : State) : Host.Outcome State Fault Refusal :=
  s.latch (colorResponse s.params ch)

/-- CCT (R82). -/
def execCct (cx cy : Fp64) (s : State) : Host.Outcome State Fault Refusal :=
  s.latch (cctResponse s.params cx cy)

end Sys2Proof.Machine
end

