-- ==== Sys2Proof/Machine/Deframe.lean ====
section
/-! DEFINITION. The multi-register frame deframer: DEFRAME (spec file 41). -/

namespace Sys2Proof.Machine

/-- `{ exponent, mantissa, counter, integrityCode }` of one channel (R14, R58). -/
structure ChannelFrame where
  e : Exponent
  m : Mantissa
  c : Nibble
  k : Nibble
  deriving DecidableEq, Repr

/-- `deframe(r)`, by the source's byte formulas (R58). -/
def deframe (r : ChanRecord) : ChannelFrame :=
  let b0 : Byte := r.extractLsb' 24 8
  let b1 : Byte := r.extractLsb' 16 8
  let b2 : Byte := r.extractLsb' 8 8
  let b3 : Byte := r.extractLsb' 0 8
  { e := b0.extractLsb' 4 4,
    m := ((b0.extractLsb' 0 4 ++ b1).setWidth 20 <<< 8) ||| b2.setWidth 20,
    c := b3.extractLsb' 4 4,
    k := b3.extractLsb' 0 4 }

/-- `record(E, R, C, K) = {E, R, C, K}`, the inverse of `deframe` (R59). -/
def recordOf (f : ChannelFrame) : ChanRecord := f.e ++ f.m ++ f.c ++ f.k

/-- The response of DEFRAME (R58). -/
def deframeResponse {α : Type} (P : Params α) (record : ChanRecord) : Response α :=
  { okResponse P with
    e := (deframe record).e, m := (deframe record).m, c := (deframe record).c, k := (deframe record).k }

/-- DEFRAME (R58). -/
def execDeframe (record : ChanRecord) (s : State) : Host.Outcome State Fault Refusal :=
  s.latch (deframeResponse s.params record)

end Sys2Proof.Machine
end

