-- ==== Sys2Proof/Machine/Integrity.lean ====
section
/-! DEFINITION. The 4-bit integrity verifier: CRC4 and VERIFY (spec file 42). -/

namespace Sys2Proof.Machine

/-- The XOR of the bits of `v` at the listed positions. -/
def xorBits {w : Nat} (v : BitVec w) : List Nat → Bool
  | [] => false
  | i :: rest => v.getLsbD i ^^ xorBits v rest

/-- The integrity code `{x3, x2, x1, x0}` by the source's bit selection (R51, R61). The received code is no input (C5). -/
def crc4 (e : Exponent) (m : Mantissa) (c : Nibble) : Nibble :=
  let x0 := xorBits e [0, 1, 2, 3] ^^ xorBits m (List.range 20) ^^ xorBits c [0, 1, 2, 3]
  let x1 := c.getLsbD 1 ^^ c.getLsbD 3 ^^ xorBits m [1, 3, 5, 7, 9, 11, 13, 15, 17, 19] ^^ e.getLsbD 1 ^^ e.getLsbD 3
  let x2 := c.getLsbD 3 ^^ xorBits m [3, 7, 11, 15, 19] ^^ e.getLsbD 3
  let x3 := m.getLsbD 3 ^^ m.getLsbD 11 ^^ m.getLsbD 19
  BitVec.ofBool x3 ++ BitVec.ofBool x2 ++ BitVec.ofBool x1 ++ BitVec.ofBool x0

/-- `parity(v)`: the XOR of all bits (R11). -/
def parity {w : Nat} (v : BitVec w) : Bool := xorBits v (List.range w)

/-- The same function as masked parities, R61's second form. -/
def crc4Masked (e : Exponent) (m : Mantissa) (c : Nibble) : Nibble :=
  let x0 := parity (e &&& 0xF) ^^ parity (m &&& 0xFFFFF) ^^ parity (c &&& 0xF)
  let x1 := parity (e &&& 0xA) ^^ parity (m &&& 0xAAAAA) ^^ parity (c &&& 0xA)
  let x2 := parity (e &&& 0x8) ^^ parity (m &&& 0x88888) ^^ parity (c &&& 0x8)
  let x3 := parity (m &&& 0x80808)
  BitVec.ofBool x3 ++ BitVec.ofBool x2 ++ BitVec.ofBool x1 ++ BitVec.ofBool x0

/-- Does the received code of a channel equal the recomputed one, all four bits (R63)? -/
def ChannelFrame.passes (f : ChannelFrame) : Bool := crc4 f.e f.m f.c == f.k

/-- The response of CRC4 (R62). -/
def crc4Response {α : Type} (P : Params α) (e : Exponent) (m : Mantissa) (c : Nibble) : Response α :=
  { okResponse P with k := crc4 e m c }

/-- The response of VERIFY: the recomputed code in both cases, and the verdict (R63, D35). -/
def verifyResponse {α : Type} (P : Params α) (e : Exponent) (m : Mantissa) (c k : Nibble) : Response α :=
  let pass := crc4 e m c == k
  { zeroResponse P with status := integrityStatus pass, k := crc4 e m c, ok := pass }

/-- CRC4 (R62). -/
def execCrc4 (e : Exponent) (m : Mantissa) (c : Nibble) (s : State) : Host.Outcome State Fault Refusal :=
  s.latch (crc4Response s.params e m c)

/-- VERIFY (R63). -/
def execVerify (e : Exponent) (m : Mantissa) (c k : Nibble) (s : State) : Host.Outcome State Fault Refusal :=
  s.latch (verifyResponse s.params e m c k)

end Sys2Proof.Machine
end

