-- ==== Sys2Proof/Machine/Reconstruct.lean ====
section
/-! DEFINITION. The ADC code reconstructor and the channel pipeline: RECON and CHANNELS (spec file 43). -/

namespace Sys2Proof.Machine

/-- `recon(E, R)`: `mantissa << exponent` in 35 bits, which loses nothing, then `NARROW32` (R66). -/
def recon (narrow32 : Bool) (e : Exponent) (m : Mantissa) : Code :=
  narrow narrow32 (m.setWidth 35 <<< e.toNat)

/-- Channel i of a frame (R60). -/
def channel (frame : Frame) (i : Nat) : ChannelFrame := deframe (frameRecord frame i)

/-- The code of channel i of a frame (R69). -/
def channelCode (narrow32 : Bool) (frame : Frame) (i : Nat) : Code :=
  recon narrow32 (channel frame i).e (channel frame i).m

/-- The fail-fast check: the first mismatch ends it (R69). -/
def allPass : List ChannelFrame → Bool
  | [] => true
  | f :: rest => if f.passes then allPass rest else false

/-- The verdict on a frame, its channels checked in index order (R69). -/
def framePasses (frame : Frame) : Bool :=
  allPass [channel frame 0, channel frame 1, channel frame 2, channel frame 3]

/-- The response of RECON (R67). -/
def reconResponse {α : Type} (P : Params α) (e : Exponent) (m : Mantissa) : Response α :=
  { okResponse P with val := recon P.narrow32 e m }

/-- The response of CHANNELS: four codes, or no code at all (R69, D12). -/
def channelsResponse {α : Type} (P : Params α) (frame : Frame) : Response α :=
  if framePasses frame then
    { okResponse P with
      ok := true,
      code := ⟨channelCode P.narrow32 frame 0, channelCode P.narrow32 frame 1,
               channelCode P.narrow32 frame 2, channelCode P.narrow32 frame 3⟩ }
  else errorResponse P statusIntegrityMismatch

/-- RECON (R67). -/
def execRecon (e : Exponent) (m : Mantissa) (s : State) : Host.Outcome State Fault Refusal :=
  s.latch (reconResponse s.params e m)

/-- CHANNELS (R69). -/
def execChannels (frame : Frame) (s : State) : Host.Outcome State Fault Refusal :=
  s.latch (channelsResponse s.params frame)

end Sys2Proof.Machine
end

