-- ==== Sys2Proof/Machine/Reserved.lean ====
section
/-! DEFINITION. The reserved operation codes 0xC to 0xF (R46). -/

namespace Sys2Proof.Machine

/-- The response to a reserved code: ILLEGAL_OP, every other field 0 (R46). -/
def rsvdResponse {α : Type} (P : Params α) : Response α := errorResponse P statusIllegalOp

/-- RSVD: no operand is read and the block goes on (R46). The four codes do the same, so `low` is not used. -/
def execRsvd (_low : BitVec 2) (s : State) : Host.Outcome State Fault Refusal :=
  s.latch (rsvdResponse s.params)

end Sys2Proof.Machine
end

