-- ==== Sys2Proof/Machine/Threshold.lean ====
section
/-! DEFINITION. The compressed threshold codec: THR_ENC and THR_DEC (spec file 44). The encoder has no bias and the decoder
has one, as the source's procedure gives them (R74, R72, C1). -/

namespace Sys2Proof.Machine

/-- `thr_dec(E, M) = M · 2^(8+E)` in 35 bits, which loses nothing, then `NARROW32` (R72). -/
def thrDecode (narrow32 : Bool) (e : Exponent) (m12 : ThrMantissa) : Code :=
  narrow narrow32 (m12.setWidth 35 <<< (8 + e.toNat))

/-- Step 2 of the encoder: halve the mantissa and raise the exponent while the mantissa exceeds 4095 and the exponent is
below 15 (R74). `fuel` bounds the turns; 15 are enough. -/
def thrNormalize : (fuel exponent mantissa : Nat) → Nat × Nat
  | 0, exponent, mantissa => (exponent, mantissa)
  | fuel + 1, exponent, mantissa =>
    if mantissa > 4095 ∧ exponent < 15 then thrNormalize fuel (exponent + 1) (mantissa / 2)
    else (exponent, mantissa)

/-- Step 3 of the encoder: a mantissa still above 4095 saturates to (7, 4095) (R74). -/
def thrSaturate (p : Nat × Nat) : Nat × Nat :=
  if p.2 > 4095 then (7, 4095) else p

/-- `thr_enc(v)` as numbers (R74). -/
def thrEncodeNat (v : ThrValue) : Nat × Nat := thrSaturate (thrNormalize 15 0 v.toNat)

/-- The exponent of `thr_enc(v)`. -/
def thrExponent (v : ThrValue) : Exponent := BitVec.ofNat 4 (thrEncodeNat v).1

/-- The mantissa of `thr_enc(v)`. -/
def thrMantissa (v : ThrValue) : ThrMantissa := BitVec.ofNat 12 (thrEncodeNat v).2

/-- `bitlen(v)`: the position of the highest set bit plus one, 0 for 0 (R75). -/
def bitlen (n : Nat) : Nat := if n = 0 then 0 else n.log2 + 1

/-- The closed form of `thr_enc` (R75). -/
def thrEncodeClosed (v : ThrValue) : Nat × Nat :=
  let b := bitlen v.toNat
  if b ≤ 12 then (0, v.toNat)
  else if b ≤ 27 then (b - 12, v.toNat / 2 ^ (b - 12))
  else (7, 4095)

/-- The response of THR_ENC (R76). -/
def thrEncResponse {α : Type} (P : Params α) (v : ThrValue) : Response α :=
  { okResponse P with
    e := thrExponent v, m12 := thrMantissa v, word := pack (thrExponent v) (thrMantissa v) }

/-- The response of THR_DEC (R73). -/
def thrDecResponse {α : Type} (P : Params α) (word : RegWord) : Response α :=
  { okResponse P with val := thrDecode P.narrow32 (unpackExponent word) (unpackMantissa word) }

/-- THR_ENC (R76). -/
def execThrEnc (v : ThrValue) (s : State) : Host.Outcome State Fault Refusal :=
  s.latch (thrEncResponse s.params v)

/-- THR_DEC (R73). -/
def execThrDec (word : RegWord) (s : State) : Host.Outcome State Fault Refusal :=
  s.latch (thrDecResponse s.params word)

end Sys2Proof.Machine
end

