-- ==== Sys2Proof/Machine/Dispatch.lean ====
section
/-! DEFINITION. The dispatch of R23 and R44: one arm per instruction. -/

namespace Sys2Proof.Machine

def exec (i : Instr) (s : State) : Host.Outcome State Fault Refusal :=
  match i with
  | .pack e m12 => Sys2Proof.Machine.execPack e m12 s
  | .unpack word => Sys2Proof.Machine.execUnpack word s
  | .deframe record => Sys2Proof.Machine.execDeframe record s
  | .crc4 e m c => Sys2Proof.Machine.execCrc4 e m c s
  | .verify e m c k => Sys2Proof.Machine.execVerify e m c k s
  | .recon e m => Sys2Proof.Machine.execRecon e m s
  | .channels frame => Sys2Proof.Machine.execChannels frame s
  | .thrEnc v => Sys2Proof.Machine.execThrEnc v s
  | .thrDec word => Sys2Proof.Machine.execThrDec word s
  | .matmul ch => Sys2Proof.Machine.execMatmul ch s
  | .color ch => Sys2Proof.Machine.execColor ch s
  | .cct cx cy => Sys2Proof.Machine.execCct cx cy s
  | .rsvd low => Sys2Proof.Machine.execRsvd low s

end Sys2Proof.Machine
end

