-- ==== Sys2Proof/Machine/HostAgent.lean ====
section
/-! DEFINITION. The host, the machine's other agent (R16, R103): what each of its actions does, and the pseudo-instructions of R53
as lists of actions. -/

namespace Sys2Proof.Machine

/-- One request of the host: decoded and executed (R23). -/
def issue (r : Request Fp64) (s : State) : Host.Outcome State Fault Refusal := exec (decode r) s

/-- What one host action does. The action has already been taken off the host's list.
A copy `$f` and the test of `$status` read `RSP` as it is (R103). R53 speaks of the response to the previous request only; when
a reset came after that request, or none was issued yet, they read the reset values 0 and NONE, and that is the model's choice
(DESIGN CHOICE, unsafe, log entry 17). -/
def hostAct (a : HostAction) (s : State) : Host.Outcome State Fault Refusal :=
  match a with
  | .request r => issue r s
  | .line op settings =>
    match applySettings s.rsp (blankRequest op) settings with
    | .ok r => issue r s
    | .error why => .refused why
  | .skipUnlessOk n => .next (if s.rsp.status = statusOk then s else { s with host := s.host.drop n })
  | .reset => .next s.resetBlock
  | .readRsp => .next s
  | .overlapRequest _ _ => .refused .overlappingRequests
  | .overlapReset _ => .refused .resetDuringRequest

/-- `CHECK rec=r` (R53). -/
def macroCheck (record : ChanRecord) : List HostAction :=
  [.line 0x2 [.num .record record.toNat],
   .line 0x4 [.copy .e .e, .copy .m .m, .copy .c .c, .copy .k .k]]

/-- `THR_RT v=x` (R53). -/
def macroThrRt (v : ThrValue) : List HostAction :=
  [.line 0x7 [.num .v v.toNat],
   .line 0x8 [.copy .word .word]]

/-- `LIGHT frame=f`: each later request is issued only when the one before it ended with OK (R53). -/
def macroLight (frame : Frame) : List HostAction :=
  [.line 0x6 [.num .frame frame.toNat],
   .skipUnlessOk 3,
   .line 0xA [.copy .ch0 .code0, .copy .ch1 .code1, .copy .ch2 .code2, .copy .ch3 .code3],
   .skipUnlessOk 1,
   .line 0xB [.copyFp .cx .cx, .copyFp .cy .cy]]

/-- `NOP`: no request at all (R53). -/
def macroNop : List HostAction := []

end Sys2Proof.Machine
end

