-- ==== Sys2Proof/Machine/Step.lean ====
section
/-! DEFINITION. One step: the host's next action happens (R23, R102). -/

namespace Sys2Proof.Machine

/-- One step of host and block. A host with nothing more to do leaves `RSP` as it is (R95). -/
def step (s : State) : Host.Outcome State Fault Refusal :=
  match s.host with
  | [] => .next s
  | a :: rest => hostAct a { s with host := rest }

/-- The host issues the table word's request next: this is where the block's next instruction comes from (R20). -/
def State.withFetchWord (s : State) (nbits w : Nat) : State :=
  { s with host := .request (tableRequest nbits w) :: s.host }

end Sys2Proof.Machine
end

