-- ==== Sys2Proof/Machine/Respond.lean ====
section
/-! DEFINITION. `Exec(MATRIX, FP, NARROW32, req)` of R22: the response as a function of the parameters and the request record
alone, for any instance of `FP`, the reference semantics among them. -/

namespace Sys2Proof.Machine

/-- `Exec` of R22: the step pseudocode of R23 with the dispatch table of R44. -/
def respond {α : Type} (P : Params α) (r : Request α) : Response α :=
  match r.op with
  | 0x0#4 => packResponse P r.e r.m12
  | 0x1#4 => unpackResponse P r.word
  | 0x2#4 => deframeResponse P r.record
  | 0x3#4 => crc4Response P r.e r.m r.c
  | 0x4#4 => verifyResponse P r.e r.m r.c r.k
  | 0x5#4 => reconResponse P r.e r.m
  | 0x6#4 => channelsResponse P r.frame
  | 0x7#4 => thrEncResponse P r.v
  | 0x8#4 => thrDecResponse P r.word
  | 0x9#4 => matmulResponse P r.ch
  | 0xA#4 => colorResponse P r.ch
  | 0xB#4 => cctResponse P r.cx r.cy
  | _ => rsvdResponse P

end Sys2Proof.Machine
end

