-- ==== Sys2Proof/Safety.lean ====
section
/-! DEFINITION. What claims about the block speak of: legal responses (R24, R66, R71) and the observation of a run (R102). -/

namespace Sys2Proof.Safety

open Sys2Proof.Machine

/-- The largest number a code or a decoded threshold can be, (2^20 - 1) · 2^15 (R66, R71). -/
def maxCode : Nat := (2 ^ 20 - 1) * 2 ^ 15

/-- The bound on a code or a decoded threshold of a block built with this `NARROW32` (R66, R72). -/
def codeBound (narrow32 : Bool) : Nat := if narrow32 then 2 ^ 32 - 1 else maxCode

/-- What `RSP` always satisfies: the block can show its host no other response. -/
structure LegalLatch (s : State) : Prop where
  /-- the values 6 and 7 are never produced (R24) -/
  status_le : s.rsp.status.toNat ≤ 5
  /-- `ok` is set only with status OK (R24) -/
  ok_status : s.rsp.ok = true → s.rsp.status = statusOk
  /-- `valid` is set only with status OK (R24) -/
  valid_status : s.rsp.valid = true → s.rsp.status = statusOk
  /-- without status OK every field but `status` and `k` is 0 (R22, R84) -/
  failed_blank : s.rsp.status ≠ statusOk →
    s.rsp = { blankResponse Fp64.posZero with status := s.rsp.status, k := s.rsp.k }
  /-- without status OK only a failed VERIFY leaves `k` other than 0 (R63, R84) -/
  failed_k : s.rsp.status ≠ statusOk → s.rsp.k ≠ 0 → s.rsp.status = statusIntegrityMismatch
  /-- a decoded or reconstructed value stays in its range (R66, R72) -/
  val_le : s.rsp.val.toNat ≤ codeBound s.build.narrow32
  code0_le : s.rsp.code.c0.toNat ≤ codeBound s.build.narrow32
  code1_le : s.rsp.code.c1.toNat ≤ codeBound s.build.narrow32
  code2_le : s.rsp.code.c2.toNat ≤ codeBound s.build.narrow32
  code3_le : s.rsp.code.c3.toNat ≤ codeBound s.build.narrow32

/-- Does this action issue a request to the block? -/
def issuesRequest : HostAction → Bool
  | .request _ => true
  | .line _ _ => true
  | .skipUnlessOk _ => false
  | .reset => false
  | .readRsp => false
  | .overlapRequest _ _ => true
  | .overlapReset _ => true

/-- The observation of a run: the responses of the requests among the next `k` steps, in order (R102). -/
def observe : Nat → State → List (Response Fp64)
  | 0, _ => []
  | k + 1, s =>
    match s.host, step s with
    | a :: _, .next t => if issuesRequest a then t.rsp :: observe k t else observe k t
    | _, _ => []

/-- Do the response fields that a line copies into integer operands fit them (D28, H-7)? -/
def copiesFit (rsp : Response Fp64) (settings : List Setting) : Prop :=
  ∀ f src, Setting.copy f src ∈ settings → rsp.int src < 2 ^ f.width

/-- `k` steps of the machine from a state. -/
def runSteps (k : Nat) (s : State) : Host.Outcome State Fault Refusal := Host.Core.run Sys2Proof.core k s

/-- The response LIGHT ends with: the failed CHANNELS, the failed COLOR, or the CCT of the COLOR's chromaticity (R53). -/
def lightResponse (P : Params Fp64) (frame : Frame) : Response Fp64 :=
  let channels := channelsResponse P frame
  let color := colorResponse P channels.code
  if channels.status = statusOk then
    if color.status = statusOk then cctResponse P color.cx color.cy else color
  else channels

/-- The magnitude from which binary64 rounds to infinity: half a place above its largest finite number. -/
def overflowBound : Rat := (2 ^ 54 - 1) * 2 ^ 970

/-- `r` is the exact number `q` rounded once to binary64: the nearest datum, a tie going to the even fraction, or an infinity of
the right sign from the overflow bound on (R7, D16; the meaning of round to nearest even is G2's). -/
def CorrectlyRounded (q : Rat) (r : Fp64) : Prop :=
  match r with
  | .nan => False
  | .inf neg => overflowBound ≤ |q| ∧ (neg = true ↔ q < 0)
  | .finite neg exp frac =>
    |q| < overflowBound ∧
    ∀ v, (Fp64.finite neg exp frac).value? = some v →
      ∀ w u, Fp64.value? w = some u →
        |v - q| ≤ |u - q| ∧ (|v - q| = |u - q| → u ≠ v → frac.getLsbD 0 = false)

end Sys2Proof.Safety
end

