-- ==== Sys2Proof/Certificates/Slice0/Obligations.lean ====
section
/-! DEFINITION. The statements about the block for the provers, rule by rule. In all of them a response is written out as the zero
response with the fields the rule gives, so an equation of states says what changes and that nothing else does. -/

open Sys2Proof Sys2Proof.Machine Sys2Proof.Safety

/-! ### Encoding (spec file 30) -/

/-- R45: each of the 16 values of `op` names exactly one row of the opcode table. -/
def Obligations.EveryOpNamesExactlyOneRow : Prop :=
  ∀ op : BitVec 4, ∃ row ∈ opTable, row.covers op = true ∧ ∀ other ∈ opTable, other.covers op = true → other = row

/-- R44: the row that covers a request's `op` is the row of the instruction it decodes to. -/
def Obligations.DecodedInstructionIsTheCoveringRow : Prop :=
  ∀ (r : Request Fp64), ∀ row ∈ opTable, row.covers r.op = true → (decode r).mnemonic = row.mnemonic

/-- R44, R21: decoding the request of any instruction gives that instruction back, and a request decodes to an instruction exactly
when it has that instruction's code and its values in the operand fields the table says it reads. -/
def Obligations.DecodeInvertsEncode : Prop :=
  ∀ i : Instr, decode (encode i) = i ∧
    ∀ r : Request Fp64, decode r = i ↔
      r.op = (encode i).op ∧ ∀ f ∈ i.operands, r.agreesAt (encode i) f = true

/-- R21: a field the operation does not read has no effect: the request with those fields zeroed gets the same response. -/
def Obligations.UnreadFieldsHaveNoEffect : Prop :=
  ∀ (P : Params Fp64) (r : Request Fp64), respond P (encode (decode r)) = respond P r

/-- The requests that spec file 95 writes out (programs P1 to P4, S1) decode to the instructions they stand for. -/
def Obligations.WrittenRequestsDecode : Prop :=
  decode { blankRequest 0b0000 with e := 0x7, m12 := 0xFFF } = .pack 0x7 0xFFF ∧
  decode { blankRequest 0b0001 with word := 0xCABC } = .unpack 0xCABC ∧
  decode { blankRequest 0b0010 with record := 0x30012352 } = .deframe 0x30012352 ∧
  decode { blankRequest 0b0100 with e := 0x3, m := 0x00123, c := 0x5, k := 0x2 } = .verify 0x3 0x00123 0x5 0x2 ∧
  decode { blankRequest 0b0101 with e := 0x3, m := 0x00123 } = .recon 0x3 0x00123 ∧
  decode { blankRequest 0b0110 with frame := 0x00000110000001221000013200000541 } =
    .channels 0x00000110000001221000013200000541 ∧
  decode { blankRequest 0b0111 with v := 0x00ABCDEF } = .thrEnc 0x00ABCDEF ∧
  decode { blankRequest 0b1000 with word := 0xCABC } = .thrDec 0xCABC ∧
  decode { blankRequest 0b1010 with ch := ⟨1, 1, 2, 5⟩ } = .color ⟨1, 1, 2, 5⟩ ∧
  decode (blankRequest 0b1100) = .rsvd 0

/-! ### The step and the run (spec files 10, 20, 70) -/

/-- R23: a step on a request runs the decoded instruction; around it the step only takes the request off the host's list. -/
def Obligations.StepRunsTheDecodedInstruction : Prop :=
  ∀ (s : State) (r : Request Fp64) (rest : List HostAction), s.host = .request r :: rest →
    step s = exec (decode r) { s with host := rest }

/-- R53: a step on an assembler line runs the request its settings assemble. That a copied field is read in `RSP`, after a reset too,
is the model's choice (log entry 17), as is the structure of a line (log entry 12). -/
def Obligations.StepRunsTheAssembledLine : Prop :=
  ∀ (s : State) (op : BitVec 4) (settings : List Setting) (rest : List HostAction) (r : Request Fp64),
    s.host = .line op settings :: rest → applySettings s.rsp (blankRequest op) settings = .ok r →
    step s = exec (decode r) { s with host := rest }

/-- R22: one request writes `RSP <- Exec(MATRIX, FP, NARROW32, req)`, the whole of it and nothing else. -/
def Obligations.StepLatchesExecOfTheRequest : Prop :=
  ∀ (s : State) (r : Request Fp64) (rest : List HostAction), s.host = .request r :: rest →
    step s = .next { s with rsp := respond s.params r, host := rest }

/-- R102: the observation of a run of requests is the sequence of `Exec` of each, whatever `RSP` held at the start, and the final
`RSP` is the last response. -/
def Obligations.RunObservesExecOfEachRequest : Prop :=
  ∀ (s : State) (rs : List (Request Fp64)), s.host = rs.map HostAction.request →
    observe rs.length s = rs.map (respond s.params) ∧
    runSteps rs.length s =
      .next { s with rsp := (rs.map (respond s.params)).getLastD s.rsp, host := [] }

/-- R17, R97: the response is a function of the operands and the parameters alone: two blocks built alike give the same response
from any two states, and every instruction completes in every state. -/
def Obligations.ResponseDependsOnRequestAndParametersOnly : Prop :=
  ∀ (i : Instr) (s s' : State), s.build = s'.build →
    ∃ r, exec i s = .next { s with rsp := r } ∧ exec i s' = .next { s' with rsp := r }

/-- Every step keeps the latch legal, in every state, with every parameter. -/
def Obligations.StepKeepsLatchLegal : Prop :=
  ∀ s t : State, LegalLatch s → step s = .next t → LegalLatch t

/-- The latch is legal after reset. -/
def Obligations.LatchLegalAfterReset : Prop :=
  LegalLatch State.reset

/-- R25, R103: no step, whatever the host does, changes the parameters. -/
def Obligations.StepNeverChangesParameters : Prop :=
  ∀ s t : State, step s = .next t → t.build = s.build

/-- R96: the reset event sets `RSP` to its reset value and changes no parameter; a reset during a request is refused. -/
def Obligations.ResetEventBlanksTheLatch : Prop :=
  (∀ (s : State) (rest : List HostAction), s.host = .reset :: rest →
    step s = .next { s with rsp := blankResponse (.finite false 0 0), host := rest }) ∧
  (∀ (s : State) (r : Request Fp64) (rest : List HostAction), s.host = .overlapReset r :: rest →
    step s = .refused .resetDuringRequest)

/-- R27: what `RSP` holds after reset, field by field, and that every reset event gives it that value and keeps the parameters. -/
def Obligations.ResetValuesOfTheLatch : Prop :=
  State.reset.rsp =
    { status := 0, e := 0, m := 0, m12 := 0, c := 0, k := 0, ok := false, word := 0, val := 0, code := ⟨0, 0, 0, 0⟩,
      X := .finite false 0 0, Y := .finite false 0 0, Z := .finite false 0 0, L := .finite false 0 0,
      cx := .finite false 0 0, cy := .finite false 0 0, lux := .finite false 0 0, valid := false,
      cct := .finite false 0 0 } ∧
  ∀ (s : State) (rest : List HostAction), s.host = .reset :: rest →
    ∃ t, step s = .next t ∧ t.rsp = State.reset.rsp ∧ t.build = s.build

/-- R95: between requests the block holds `RSP` unchanged: when the host has nothing to do (log entry 4), when it reads `RSP` (R103),
and when it tests the status, which leaves out exactly its next n actions unless the status is OK (the model's choice of how the
host tests, log entries 11 and 17). -/
def Obligations.LatchHoldsBetweenRequests : Prop :=
  (∀ s : State, s.host = [] → step s = .next s) ∧
  (∀ (s : State) (rest : List HostAction), s.host = .readRsp :: rest → step s = .next { s with host := rest }) ∧
  (∀ (s : State) (n : Nat) (rest : List HostAction), s.host = .skipUnlessOk n :: rest →
    (s.rsp.status = 1 → step s = .next { s with host := rest }) ∧
    (s.rsp.status ≠ 1 → step s = .next { s with host := rest.drop n }))

/-- R22, R44: a field that is no result of the operation is written zero. -/
def Obligations.UnproducedFieldsAreWrittenZero : Prop :=
  ∀ (i : Instr) (s t : State) (f : RspField), exec i s = .next t → f ∉ i.results → f ≠ .int .status →
    t.rsp.isZeroAt Fp64.posZero f = true

/-- R84, R90: no step faults, and the model refuses only what is no request: a line with a number, written out or copied, that does
not fit its field, or with a buffer that is not 16 bytes long (D28, D37, log entry 10), and an overlap of a request with another
one or with a reset (D1, D32, log entry 9). Two requests in flight are always refused (H-5). -/
def Obligations.NoFaultAndNoRequestRefused : Prop :=
  (∀ s : State, (∀ f, step s ≠ .fault f) ∧
    ∀ why, step s = .refused why →
      ∃ a rest, s.host = a :: rest ∧
        ((∃ op settings, a = .line op settings ∧
            ((∃ f n, why = .operandOutOfRange f n ∧ 2 ^ f.width ≤ n ∧
                (.num f n ∈ settings ∨ ∃ src, .copy f src ∈ settings ∧ s.rsp.int src = n)) ∨
             ∃ bytes, why = .frameSize bytes.length ∧ bytes.length ≠ 16 ∧ .buffer bytes ∈ settings)) ∨
         (∃ q r, a = .overlapRequest q r ∧ why = .overlappingRequests) ∨
         ∃ q, a = .overlapReset q ∧ why = .resetDuringRequest)) ∧
  (∀ (s : State) (q r : Request Fp64) (rest : List HostAction), s.host = .overlapRequest q r :: rest →
    step s = .refused .overlappingRequests)

/-- R90, R103: what the host presents within its duties runs: a step completes when the next action is well formed and what it
copies from the last response fits. -/
def Obligations.WellFormedActionsComplete : Prop :=
  ∀ (s : State) (a : HostAction) (rest : List HostAction), s.host = a :: rest → a.wellFormed = true →
    (∀ op settings, a = .line op settings → copiesFit s.rsp settings) →
    ∃ t, step s = .next t ∧ t.build = s.build ∧
      (issuesRequest a = true → ∃ i, exec i { s with host := rest } = .next t)

/-- R84: which status each operation can report. -/
def Obligations.StatusOfEachOperation : Prop :=
  ∀ (i : Instr) (s t : State), exec i s = .next t →
    match i with
    | .verify _ _ _ _ | .channels _ => t.rsp.status = 1 ∨ t.rsp.status = 2
    | .color _ => t.rsp.status = 1 ∨ t.rsp.status = 3
    | .cct _ _ => t.rsp.status = 1 ∨ t.rsp.status = 4
    | .rsvd _ => t.rsp.status = 5
    | .pack _ _ | .unpack _ | .deframe _ | .crc4 _ _ _ | .recon _ _ | .thrEnc _ | .thrDec _ | .matmul _ => t.rsp.status = 1

/-- R24: `ok` and `valid` repeat the outcome: 1 exactly when the status is OK. -/
def Obligations.OkAndValidRepeatTheStatus : Prop :=
  ∀ s t : State,
    (∀ e m c k, exec (.verify e m c k) s = .next t → (t.rsp.ok = true ↔ t.rsp.status = 1)) ∧
    (∀ frame, exec (.channels frame) s = .next t → (t.rsp.ok = true ↔ t.rsp.status = 1)) ∧
    (∀ ch, exec (.color ch) s = .next t → (t.rsp.valid = true ↔ t.rsp.status = 1))

/-! ### The bitfield codec (spec file 40) -/

/-- R54: PACK, in arithmetic. -/
def Obligations.PackResult : Prop :=
  (∀ r : Request Fp64, r.op = 0x0 → decode r = .pack r.e r.m12) ∧
  ∀ (e : Exponent) (m12 : ThrMantissa) (s : State),
    exec (.pack e m12) s = .next { s with rsp :=
      { blankResponse (.finite false 0 0) with status := 1, word := BitVec.ofNat 16 (e.toNat * 2 ^ 12 + m12.toNat) } }

/-- R55: UNPACK, in arithmetic. -/
def Obligations.UnpackResult : Prop :=
  (∀ r : Request Fp64, r.op = 0x1 → decode r = .unpack r.word) ∧
  ∀ (word : RegWord) (s : State),
    exec (.unpack word) s = .next { s with rsp :=
      { blankResponse (.finite false 0 0) with
        status := 1, e := BitVec.ofNat 4 (word.toNat / 2 ^ 12), m12 := BitVec.ofNat 12 (word.toNat % 2 ^ 12) } }

/-- R56: the codec is a bijection between pairs and words. -/
def Obligations.PackUnpackBijection : Prop :=
  (∀ (e : Exponent) (m : ThrMantissa), unpackExponent (pack e m) = e ∧ unpackMantissa (pack e m) = m) ∧
  (∀ w : RegWord, pack (unpackExponent w) (unpackMantissa w) = w)

/-- R57: the MSB register of a record unpacks to its exponent and the high 12 bits of its mantissa. -/
def Obligations.MsbRegisterUnpacks : Prop :=
  ∀ r : ChanRecord, unpackExponent (msbReg r) = (deframe r).e ∧ unpackMantissa (msbReg r) = (deframe r).m.extractLsb' 8 12

/-! ### The deframer (spec files 41 and 20) -/

/-- R58: DEFRAME, by bit ranges of the record. -/
def Obligations.DeframeResult : Prop :=
  (∀ r : Request Fp64, r.op = 0x2 → decode r = .deframe r.record) ∧
  ∀ (record : ChanRecord) (s : State),
    exec (.deframe record) s = .next { s with rsp :=
      { blankResponse (.finite false 0 0) with
        status := 1,
        e := record.extractLsb' 28 4,
        m := record.extractLsb' 8 20,
        c := record.extractLsb' 4 4,
        k := record.extractLsb' 0 4 } }

/-- R59: record assembly is the inverse of deframing. -/
def Obligations.RecordAssemblyInvertsDeframe : Prop :=
  (∀ f : ChannelFrame, deframe (recordOf f) = f) ∧ (∀ r : ChanRecord, recordOf (deframe r) = r) ∧
  (∀ f : ChannelFrame,
    (recordOf f).toNat = f.e.toNat * 2 ^ 28 + f.m.toNat * 2 ^ 8 + f.c.toNat * 2 ^ 4 + f.k.toNat)

/-- R30, R31: byte k of a 16-byte buffer is `Byte(frame, k)`, and record i is bytes 4i to 4i+3, the first one highest. -/
def Obligations.FrameCarriesTheBuffer : Prop :=
  (∀ bytes : List Byte, bytes.length = 16 → ∀ k, k < 16 → bytes[k]? = some (frameByte (frameOfBytes bytes) k)) ∧
  (∀ (frame : Frame) (i : Nat), i < 4 →
    frameRecord frame i =
      frameByte frame (4 * i) ++ frameByte frame (4 * i + 1) ++ frameByte frame (4 * i + 2) ++ frameByte frame (4 * i + 3))

/-- R34: a buffer that is not 16 bytes long has no request: the model refuses it, neither padding nor truncating, in a line of any
code and wherever it stands after settings that fit (the first setting that does not fit gives the refusal, log entry 10). -/
def Obligations.WrongSizeBufferIsRefused : Prop :=
  ∀ (s : State) (op : BitVec 4) (pre more : List Setting) (bytes : List Byte) (rest : List HostAction) (r : Request Fp64),
    s.host = .line op (pre ++ .buffer bytes :: more) :: rest →
    applySettings s.rsp (blankRequest op) pre = .ok r → bytes.length ≠ 16 →
    step s = .refused (.frameSize bytes.length)

/-- D28, H-7: a number that does not fit its operand field is refused and never wrapped, written out or copied, wherever it stands
after settings that fit (the first setting that does not fit gives the refusal, log entry 10). -/
def Obligations.OutOfRangeOperandIsRefused : Prop :=
  ∀ (s : State) (op : BitVec 4) (f : IntOperand) (pre more : List Setting) (rest : List HostAction) (r : Request Fp64),
    applySettings s.rsp (blankRequest op) pre = .ok r →
    (∀ n, s.host = .line op (pre ++ .num f n :: more) :: rest → 2 ^ f.width ≤ n →
      step s = .refused (.operandOutOfRange f n)) ∧
    (∀ src, s.host = .line op (pre ++ .copy f src :: more) :: rest → 2 ^ f.width ≤ s.rsp.int src →
      step s = .refused (.operandOutOfRange f (s.rsp.int src)))

/-! ### The integrity verifier (spec file 42) -/

/-- R61: the integrity function is the source's bit selection and the masked parities, it is linear, and the codes of the single data
bits are the table's. -/
def Obligations.IntegrityFunction : Prop :=
  (∀ (e : Exponent) (m : Mantissa) (c : Nibble),
    (crc4 e m c).getLsbD 0 = (parity e ^^ parity m ^^ parity c) ∧
    (crc4 e m c).getLsbD 1 =
      (c.getLsbD 1 ^^ c.getLsbD 3 ^^
        (m.getLsbD 1 ^^ m.getLsbD 3 ^^ m.getLsbD 5 ^^ m.getLsbD 7 ^^ m.getLsbD 9 ^^ m.getLsbD 11 ^^
         m.getLsbD 13 ^^ m.getLsbD 15 ^^ m.getLsbD 17 ^^ m.getLsbD 19) ^^
        e.getLsbD 1 ^^ e.getLsbD 3) ∧
    (crc4 e m c).getLsbD 2 =
      (c.getLsbD 3 ^^ (m.getLsbD 3 ^^ m.getLsbD 7 ^^ m.getLsbD 11 ^^ m.getLsbD 15 ^^ m.getLsbD 19) ^^ e.getLsbD 3) ∧
    (crc4 e m c).getLsbD 3 = (m.getLsbD 3 ^^ m.getLsbD 11 ^^ m.getLsbD 19) ∧
    crc4 e m c = crc4Masked e m c) ∧
  (∀ (e e' : Exponent) (m m' : Mantissa) (c c' : Nibble),
    crc4 (e ^^^ e') (m ^^^ m') (c ^^^ c') = crc4 e m c ^^^ crc4 e' m' c') ∧
  crc4 0 0 0 = 0 ∧
  (List.range 4).map (fun i => crc4 (1#4 <<< i) 0 0) = [1, 3, 1, 7] ∧
  (List.range 20).map (fun i => crc4 0 (1#20 <<< i) 0) =
    [1, 3, 1, 0xF, 1, 3, 1, 7, 1, 3, 1, 0xF, 1, 3, 1, 7, 1, 3, 1, 0xF] ∧
  (List.range 4).map (fun i => crc4 0 0 (1#4 <<< i)) = [1, 3, 1, 7]

/-- R62: CRC4. -/
def Obligations.Crc4Result : Prop :=
  (∀ r : Request Fp64, r.op = 0x3 → decode r = .crc4 r.e r.m r.c) ∧
  ∀ (e : Exponent) (m : Mantissa) (c : Nibble) (s : State),
    exec (.crc4 e m c) s = .next { s with rsp :=
      { blankResponse (.finite false 0 0) with status := 1, k := crc4Masked e m c } }

/-- R63: VERIFY, on an equal code and on a different one. -/
def Obligations.VerifyResult : Prop :=
  (∀ r : Request Fp64, r.op = 0x4 → decode r = .verify r.e r.m r.c r.k) ∧
  ∀ (e : Exponent) (m : Mantissa) (c k : Nibble) (s : State),
    (crc4 e m c = k → exec (.verify e m c k) s = .next { s with rsp :=
      { blankResponse (.finite false 0 0) with status := 1, k := k, ok := true } }) ∧
    (crc4 e m c ≠ k → exec (.verify e m c k) s = .next { s with rsp :=
      { blankResponse (.finite false 0 0) with status := 2, k := crc4 e m c } })

/-- R64: what VERIFY detects: every change of the code, every single-bit change of the data; and two double changes it does not. -/
def Obligations.VerifyDetection : Prop :=
  (∀ (e : Exponent) (m : Mantissa) (c k : Nibble) (s : State), k ≠ crc4 e m c →
    ∃ t, exec (.verify e m c k) s = .next t ∧ t.rsp.status = 2 ∧ t.rsp.ok = false) ∧
  (∀ (e : Exponent) (m : Mantissa) (c : Nibble) (s : State) (i : Nat),
    (i < 4 → ∃ t, exec (.verify (e ^^^ 1#4 <<< i) m c (crc4 e m c)) s = .next t ∧ t.rsp.status = 2) ∧
    (i < 20 → ∃ t, exec (.verify e (m ^^^ 1#20 <<< i) c (crc4 e m c)) s = .next t ∧ t.rsp.status = 2) ∧
    (i < 4 → ∃ t, exec (.verify e m (c ^^^ 1#4 <<< i) (crc4 e m c)) s = .next t ∧ t.rsp.status = 2)) ∧
  (∀ (e : Exponent) (m : Mantissa) (c : Nibble) (s : State),
    (∃ t, exec (.verify e (m ^^^ 0x00005) c (crc4 e m c)) s = .next t ∧ t.rsp.status = 1) ∧
    (∃ t, exec (.verify e (m ^^^ 0x00808) c (crc4 e m c)) s = .next t ∧ t.rsp.status = 1))

/-! ### Reconstruction and the channel pipeline (spec file 43) -/

/-- R66: the reconstruction is exact, or exact modulo 2^32, and the two differ only for exponents from 13 on. -/
def Obligations.ReconstructionIsExact : Prop :=
  ∀ (e : Exponent) (m : Mantissa),
    (recon false e m).toNat = m.toNat * 2 ^ e.toNat ∧
    (recon true e m).toNat = m.toNat * 2 ^ e.toNat % 2 ^ 32 ∧
    (recon true e m ≠ recon false e m → 13 ≤ e.toNat)

/-- R67: RECON. -/
def Obligations.ReconResult : Prop :=
  (∀ r : Request Fp64, r.op = 0x5 → decode r = .recon r.e r.m) ∧
  ∀ (e : Exponent) (m : Mantissa) (s : State),
    exec (.recon e m) s = .next { s with rsp :=
      { blankResponse (.finite false 0 0) with
        status := 1,
        val := BitVec.ofNat 35
          (if s.build.narrow32 then m.toNat * 2 ^ e.toNat % 2 ^ 32 else m.toNat * 2 ^ e.toNat) } }

/-- R69, R70: CHANNELS gives the four codes when every channel's code is right, and none of them otherwise. -/
def Obligations.ChannelsResult : Prop :=
  (∀ r : Request Fp64, r.op = 0x6 → decode r = .channels r.frame) ∧
  ∀ (frame : Frame) (s : State),
    ((∀ i, i < 4 → crc4 (channel frame i).e (channel frame i).m (channel frame i).c = (channel frame i).k) →
      exec (.channels frame) s = .next { s with rsp :=
        { blankResponse (.finite false 0 0) with
          status := 1, ok := true,
          code := ⟨recon s.build.narrow32 (channel frame 0).e (channel frame 0).m,
                   recon s.build.narrow32 (channel frame 1).e (channel frame 1).m,
                   recon s.build.narrow32 (channel frame 2).e (channel frame 2).m,
                   recon s.build.narrow32 (channel frame 3).e (channel frame 3).m⟩ } }) ∧
    (∀ i, i < 4 → crc4 (channel frame i).e (channel frame i).m (channel frame i).c ≠ (channel frame i).k →
      exec (.channels frame) s = .next { s with rsp := { blankResponse (.finite false 0 0) with status := 2 } })

/-- R60: the four channels of a frame are the fields of its bytes. -/
def Obligations.ChannelFieldsOfTheFrame : Prop :=
  ∀ (frame : Frame) (i : Nat), i < 4 →
    (channel frame i).e = (frameByte frame (4 * i)).extractLsb' 4 4 ∧
    (channel frame i).m =
      (frameByte frame (4 * i)).extractLsb' 0 4 ++ frameByte frame (4 * i + 1) ++ frameByte frame (4 * i + 2) ∧
    (channel frame i).c = (frameByte frame (4 * i + 3)).extractLsb' 4 4 ∧
    (channel frame i).k = (frameByte frame (4 * i + 3)).extractLsb' 0 4

/-- R69's corner case: flipping one bit of one channel's integrity nibble in a passing frame makes CHANNELS fail. -/
def Obligations.ChannelsRejectsAFlippedNibbleBit : Prop :=
  ∀ (frame : Frame) (s t : State) (i b : Nat), i < 4 → b < 4 →
    exec (.channels frame) s = .next t → t.rsp.status = 1 →
    exec (.channels (frame ^^^ 1#128 <<< (96 - 32 * i + b))) s =
      .next { s with rsp := { blankResponse (.finite false 0 0) with status := 2 } }

/-! ### The threshold codec (spec file 44) -/

/-- R75: the encoder's loop equals its closed form, range by range. -/
def Obligations.ThresholdEncoderClosedForm : Prop :=
  ∀ v : ThrValue,
    (v.toNat ≤ 4095 → bitlen v.toNat ≤ 12 ∧ thrEncodeNat v = (0, v.toNat)) ∧
    (4096 ≤ v.toNat → v.toNat < 2 ^ 27 →
      13 ≤ bitlen v.toNat ∧ bitlen v.toNat ≤ 27 ∧
      thrEncodeNat v = (bitlen v.toNat - 12, v.toNat / 2 ^ (bitlen v.toNat - 12)) ∧
      2048 ≤ v.toNat / 2 ^ (bitlen v.toNat - 12) ∧ v.toNat / 2 ^ (bitlen v.toNat - 12) ≤ 4095) ∧
    (2 ^ 27 ≤ v.toNat → 28 ≤ bitlen v.toNat ∧ bitlen v.toNat ≤ 32 ∧ thrEncodeNat v = (7, 4095))

/-- R76: THR_ENC; the encoder's numbers fit their fields, so nothing wraps. -/
def Obligations.ThrEncResult : Prop :=
  (∀ r : Request Fp64, r.op = 0x7 → decode r = .thrEnc r.v) ∧
  ∀ (v : ThrValue) (s : State),
    (thrEncodeNat v).1 ≤ 15 ∧ (thrEncodeNat v).2 ≤ 4095 ∧
    exec (.thrEnc v) s = .next { s with rsp :=
      { blankResponse (.finite false 0 0) with
        status := 1,
        e := BitVec.ofNat 4 (thrEncodeClosed v).1,
        m12 := BitVec.ofNat 12 (thrEncodeClosed v).2,
        word := BitVec.ofNat 16 ((thrEncodeClosed v).1 * 2 ^ 12 + (thrEncodeClosed v).2) } }

/-- R72, R73: THR_DEC, in arithmetic; the full value fits 35 bits. -/
def Obligations.ThrDecResult : Prop :=
  (∀ r : Request Fp64, r.op = 0x8 → decode r = .thrDec r.word) ∧
  ∀ (word : RegWord) (s : State),
    word.toNat % 2 ^ 12 * 2 ^ (8 + word.toNat / 2 ^ 12) < 2 ^ 35 ∧
    exec (.thrDec word) s = .next { s with rsp :=
      { blankResponse (.finite false 0 0) with
        status := 1,
        val := BitVec.ofNat 35
          (if s.build.narrow32 then word.toNat % 2 ^ 12 * 2 ^ (8 + word.toNat / 2 ^ 12) % 2 ^ 32
           else word.toNat % 2 ^ 12 * 2 ^ (8 + word.toNat / 2 ^ 12)) } }

/-- R77: what decoding an encoded value gives: 256 times the truncated input, or the saturation value; never an approximation.
What the truncation loses, and what encoding a decoded value again gives. -/
def Obligations.DecodingAnEncodedThreshold : Prop :=
  (∀ v : ThrValue,
    (v.toNat < 2 ^ 27 →
      (thrDecode false (thrExponent v) (thrMantissa v)).toNat =
        2 ^ 8 * (v.toNat / 2 ^ (thrEncodeNat v).1 * 2 ^ (thrEncodeNat v).1) ∧
      (1 ≤ v.toNat → v.toNat < (thrDecode false (thrExponent v) (thrMantissa v)).toNat) ∧
      ((thrDecode false (thrExponent v) (thrMantissa v)).toNat = 256 * v.toNat ↔ v.toNat % 2 ^ (thrEncodeNat v).1 = 0)) ∧
    (4096 ≤ v.toNat → v.toNat < 2 ^ 27 →
      v.toNat < v.toNat / 2 ^ (thrEncodeNat v).1 * 2 ^ (thrEncodeNat v).1 + 2 ^ (thrEncodeNat v).1 ∧
      2048 * 2 ^ (thrEncodeNat v).1 ≤ v.toNat) ∧
    (2 ^ 27 ≤ v.toNat →
      (thrDecode false (thrExponent v) (thrMantissa v)).toNat = 134184960 ∧
      (thrDecode false (thrExponent v) (thrMantissa v)).toNat < v.toNat)) ∧
  (∀ (word : RegWord) (d : ThrValue),
    (thrDecode false (unpackExponent word) (unpackMantissa word)).toNat = d.toNat → d.toNat < 2 ^ 27 →
    (thrDecode false (thrExponent d) (thrMantissa d)).toNat = 256 * d.toNat)

/-! ### Colorimetry in binary64 (spec file 45) -/

/-- R79, R83: MATMUL, each sum left to right, for every matrix. -/
def Obligations.MatmulResult : Prop :=
  (∀ r : Request Fp64, r.op = 0x9 → decode r = .matmul r.ch) ∧
  ∀ (ch : Quad Code) (s : State),
    let c0 := Fp64.ofNat ch.c0.toNat
    let c1 := Fp64.ofNat ch.c1.toNat
    let c2 := Fp64.ofNat ch.c2.toNat
    let c3 := Fp64.ofNat ch.c3.toNat
    let M := s.build.matrix
    exec (.matmul ch) s = .next { s with rsp :=
      { blankResponse (.finite false 0 0) with
        status := 1,
        X := (((c0.mul M.c0.x).add (c1.mul M.c1.x)).add (c2.mul M.c2.x)).add (c3.mul M.c3.x),
        Y := (((c0.mul M.c0.y).add (c1.mul M.c1.y)).add (c2.mul M.c2.y)).add (c3.mul M.c3.y),
        Z := (((c0.mul M.c0.z).add (c1.mul M.c1.z)).add (c2.mul M.c2.z)).add (c3.mul M.c3.z),
        L := (((c0.mul M.c0.l).add (c1.mul M.c1.l)).add (c2.mul M.c2.l)).add (c3.mul M.c3.l) } }

/-- R81: COLOR, on a sum above 0 and on any other sum, a NaN among them. X, Y, Z and L are what MATMUL gives on the same codes. -/
def Obligations.ColorResult : Prop :=
  (∀ r : Request Fp64, r.op = 0xA → decode r = .color r.ch) ∧
  ∀ (ch : Quad Code) (s t : State), exec (.matmul ch) s = .next t →
    let sum := (t.rsp.X.add t.rsp.Y).add t.rsp.Z
    (sum.gt (.finite false 0 0) = true → exec (.color ch) s = .next { s with rsp :=
      { blankResponse (.finite false 0 0) with
        status := 1, cx := t.rsp.X.div sum, cy := t.rsp.Y.div sum, lux := t.rsp.L, valid := true } }) ∧
    (sum.gt (.finite false 0 0) = false → exec (.color ch) s = .next { s with rsp :=
      { blankResponse (.finite false 0 0) with status := 3 } })

/-- R82, R83: CCT, on the three cases of the sentinel and on every other input. -/
def Obligations.CctResult : Prop :=
  (∀ r : Request Fp64, r.op = 0xB → decode r = .cct r.cx r.cy) ∧
  ∀ (cx cy : Fp64) (s : State),
    let zero : Fp64 := .finite false 0 0
    let d := (Fp64.ofDec 3320 4, (Fp64.ofDec 1858 4).sub cy)
    let n := (cx.sub d.1).div d.2
    let sentinel : Host.Outcome State Fault Refusal :=
      .next { s with rsp := { blankResponse (.finite false 0 0) with status := 4 } }
    (cx.eq zero = true → cy.eq zero = true → exec (.cct cx cy) s = sentinel) ∧
    (cx.isFinite = false ∨ cy.isFinite = false → exec (.cct cx cy) s = sentinel) ∧
    (d.2.eq zero = true → exec (.cct cx cy) s = sentinel) ∧
    (¬(cx.eq zero = true ∧ cy.eq zero = true) → cx.isFinite = true → cy.isFinite = true → d.2.eq zero = false →
      exec (.cct cx cy) s = .next { s with rsp :=
        { blankResponse (.finite false 0 0) with
          status := 1,
          cct := ((((Fp64.ofNat 437).mul ((n.mul n).mul n)).add ((Fp64.ofNat 3601).mul (n.mul n))).add
            ((Fp64.ofNat 6861).mul n)).add (Fp64.ofNat 5517) } })

/-- S7: COLOR of four zero codes is degenerate under every matrix, a non-finite one among them. -/
def Obligations.ZeroCodesAreDegenerate : Prop :=
  ∀ s : State, exec (.color ⟨0, 0, 0, 0⟩) s =
    .next { s with rsp := { blankResponse (.finite false 0 0) with status := 3 } }

/-- R80: a natural number up to 2^53, so every channel code, enters binary64 without rounding. -/
def Obligations.SmallNaturalsAreExact : Prop :=
  (∀ n : Nat, n ≤ 2 ^ 53 → (Fp64.ofNat n).value? = some (n : Rat)) ∧
  (∀ c : Code, (Fp64.ofNat c.toNat).value? = some (c.toNat : Rat))

/-- R83: the two decimal constants of CCT are the stated binary64 numbers, and its integer coefficients are exact. -/
def Obligations.CctConstantsInBinary64 : Prop :=
  (Fp64.ofDec 3320 4).value? = some (5980780305148019 / 2 ^ 54) ∧
  (Fp64.ofDec 1858 4).value? = some (6694150486123505 / 2 ^ 55) ∧
  (Fp64.ofNat 437).value? = some 437 ∧ (Fp64.ofNat 3601).value? = some 3601 ∧
  (Fp64.ofNat 6861).value? = some 6861 ∧ (Fp64.ofNat 5517).value? = some 5517

/-- R7, D16: each binary64 operation on finite operands is the exact result rounded once, to nearest even, with the sign of the
exact result. What nearest and overflow mean, and the sign of a zero result, are IEEE 754's, which the model presumes
(log entry 7). -/
def Obligations.BinaryOperationsRoundOnce : Prop :=
  ∀ (a b : Fp64) (x y : Rat), a.value? = some x → b.value? = some y →
    CorrectlyRounded (x + y) (a.add b) ∧
    CorrectlyRounded (x - y) (a.sub b) ∧
    CorrectlyRounded (x * y) (a.mul b) ∧
    (y ≠ 0 → CorrectlyRounded (x / y) (a.div b)) ∧
    ((a.add b).isNegative = true ↔ x + y < 0 ∨ (x + y = 0 ∧ a.isNegative = true ∧ b.isNegative = true)) ∧
    ((a.sub b).isNegative = true ↔ x - y < 0 ∨ (x - y = 0 ∧ a.isNegative = true ∧ b.isNegative = false)) ∧
    (a.mul b).isNegative = (a.isNegative ^^ b.isNegative) ∧
    (y ≠ 0 → (a.div b).isNegative = (a.isNegative ^^ b.isNegative))

/-- R82: in binary64 the denominator of CCT is zero exactly at the constant: a difference of finite numbers never underflows to
zero. -/
def Obligations.CctDenominatorZeroOnlyAtTheConstant : Prop :=
  ∀ cy : Fp64, cy.isFinite = true →
    (((Fp64.ofDec 1858 4).sub cy).eq (.finite false 0 0) = true ↔ cy = Fp64.ofDec 1858 4)

/-- R82, C8: in binary64 an input with |cx| ≤ 1 and any finite cy gives a finite colour temperature. -/
def Obligations.CctFiniteOnChromaticities : Prop :=
  ∀ (cx cy : Fp64) (s t : State), cx.le (Fp64.ofNat 1) = true → (Fp64.ofNat 1).neg.le cx = true → cy.isFinite = true →
    exec (.cct cx cy) s = .next t → t.rsp.cct.isFinite = true

/-! ### Colorimetry in the reference semantics (spec file 45, D16) -/

/-- R79: over the reals MATMUL is the row vector of codes times the matrix, and it is linear. -/
def Obligations.ReferenceTransformIsLinear : Prop :=
  ∀ (M : CalMatrix ℝ) (ch : Quad Code),
    let t := matmul (Fp.exact ℝ) M ch
    (t.x = ch.c0.toNat * M.c0.x + ch.c1.toNat * M.c1.x + ch.c2.toNat * M.c2.x + ch.c3.toNat * M.c3.x ∧
     t.y = ch.c0.toNat * M.c0.y + ch.c1.toNat * M.c1.y + ch.c2.toNat * M.c2.y + ch.c3.toNat * M.c3.y ∧
     t.z = ch.c0.toNat * M.c0.z + ch.c1.toNat * M.c1.z + ch.c2.toNat * M.c2.z + ch.c3.toNat * M.c3.z ∧
     t.l = ch.c0.toNat * M.c0.l + ch.c1.toNat * M.c1.l + ch.c2.toNat * M.c2.l + ch.c3.toNat * M.c3.l) ∧
    ∀ (a : Nat) (ch' : Quad Code),
      ch'.c0.toNat = a * ch.c0.toNat → ch'.c1.toNat = a * ch.c1.toNat →
      ch'.c2.toNat = a * ch.c2.toNat → ch'.c3.toNat = a * ch.c3.toNat →
      matmul (Fp.exact ℝ) M ch' = ⟨a * t.x, a * t.y, a * t.z, a * t.l⟩

/-- R81: over the reals COLOR is degenerate exactly for a non-positive sum, and otherwise gives X/sum and Y/sum. -/
def Obligations.ReferenceColor : Prop :=
  ∀ (M : CalMatrix ℝ) (narrow32 : Bool) (ch : Quad Code),
    let P : Params ℝ := { fp := Fp.exact ℝ, matrix := M, narrow32 := narrow32 }
    let t := matmul (Fp.exact ℝ) M ch
    (t.x + t.y + t.z ≤ 0 → colorResponse P ch = { blankResponse 0 with status := 3 }) ∧
    (0 < t.x + t.y + t.z →
      colorResponse P ch =
        { blankResponse 0 with
          status := 1, valid := true, cx := t.x / (t.x + t.y + t.z), cy := t.y / (t.x + t.y + t.z), lux := t.l } ∧
      (colorResponse P ch).cx + (colorResponse P ch).cy + t.z / (t.x + t.y + t.z) = 1)

/-- R82: over the reals CCT is the cubic of n, but for the two zeros and the zero denominator, where it is the sentinel. -/
def Obligations.ReferenceCct : Prop :=
  ∀ (M : CalMatrix ℝ) (narrow32 : Bool) (cx cy : ℝ),
    let P : Params ℝ := { fp := Fp.exact ℝ, matrix := M, narrow32 := narrow32 }
    let n := (cx - 0.3320) / (0.1858 - cy)
    ((cx = 0 ∧ cy = 0) ∨ cy = 0.1858 → cctResponse P cx cy = { blankResponse 0 with status := 4 }) ∧
    (¬(cx = 0 ∧ cy = 0) → cy ≠ 0.1858 →
      cctResponse P cx cy =
        { blankResponse 0 with status := 1, cct := 437 * n ^ 3 + 3601 * n ^ 2 + 6861 * n + 5517 })

/-! ### Reserved codes and pseudo-instructions (spec file 30) -/

/-- R46: a reserved code reads no operand, gives ILLEGAL_OP with every other field zero, and has no other effect. -/
def Obligations.ReservedCodeResult : Prop :=
  (∀ r : Request Fp64, r.op.toNat ≥ 12 → ∃ low, decode r = .rsvd low) ∧
  ∀ (low : BitVec 2) (s : State),
    exec (.rsvd low) s = .next { s with rsp := { blankResponse (.finite false 0 0) with status := 5 } }

/-- R53: CHECK deframes a record and verifies its fields. -/
def Obligations.CheckMacroVerifiesTheRecord : Prop :=
  ∀ (s : State) (record : ChanRecord) (rest : List HostAction), s.host = macroCheck record ++ rest →
    runSteps 2 s = .next { s with
      rsp := verifyResponse s.params (deframe record).e (deframe record).m (deframe record).c (deframe record).k,
      host := rest }

/-- R53: THR_RT encodes a value and decodes the word. -/
def Obligations.ThrRtMacroDecodesTheEncodedWord : Prop :=
  ∀ (s : State) (v : ThrValue) (rest : List HostAction), s.host = macroThrRt v ++ rest →
    runSteps 2 s = .next { s with
      rsp := { blankResponse (.finite false 0 0) with
               status := 1, val := thrDecode s.build.narrow32 (thrExponent v) (thrMantissa v) },
      host := rest }

/-- R53, H-3, H-6: LIGHT stops at the first status other than OK, and CCT gets only the chromaticity of a COLOR with status OK. That
the host tests the status by the action skipUnlessOk is the model's choice (log entry 11). -/
def Obligations.LightMacroMeasuresOrStops : Prop :=
  ∀ (s : State) (frame : Frame) (rest : List HostAction), s.host = macroLight frame ++ rest →
    ∃ k, k ≤ 5 ∧ runSteps k s = .next { s with rsp := lightResponse s.params frame, host := rest }
end

