-- ==== Sys2Proof/Laws/Float.lean ====
section
/-! SUPPORT. What the rounding of Machine/Float.lean can do, said once: its two cases, its bounds, its exact results, and
that no other datum is nearer. -/

namespace Sys2Proof

/-- The factored power is the power. -/
@[simp] theorem pow2_eq (n : Nat) : pow2 n = 2 ^ n := by
  unfold pow2
  rw [← pow_mul, ← pow_add, Nat.div_add_mod]

@[simp] theorem evalNat_eq {α : Type} (n : Nat) (f : Nat → α) : evalNat n f = f n := by cases n <;> rfl

@[simp] theorem evalBool_eq {α : Type} (b : Bool) (f : Bool → α) : evalBool b f = f b := by cases b <;> rfl

@[simp] theorem log2Fast_eq (fuel n : Nat) : log2Fast fuel n = n.log2 := by
  induction fuel generalizing n with
  | zero => rfl
  | succ fuel ih =>
    rw [log2Fast]
    split
    · rfl
    · next h =>
      have h0 : n / 2 ^ 64 ≠ 0 := by omega
      have h1 := Nat.log2_self_le h0
      have h2 := Nat.lt_log2_self (n := n / 2 ^ 64)
      rw [evalNat_eq, ih]
      refine ((Nat.log2_eq_iff (by omega)).mpr ⟨?_, ?_⟩).symm
      · rw [pow_add]
        omega
      · rw [Nat.add_assoc, pow_add]
        omega

/-- Rounding keeps the sign it is given, a zero's too. -/
@[simp] theorem isNegative_roundScaled (neg : Bool) (n d : Nat) : (Fp64.roundScaled neg n d).isNegative = neg := by
  cases n with
  | zero => rfl
  | succ n =>
    simp only [Fp64.roundScaled, Fp64.roundPositive, evalNat_eq, evalBool_eq]
    split <;> rfl

@[simp] theorem isNegative_neg (a : Fp64) (h : a ≠ .nan) : a.neg.isNegative = !a.isNegative := by
  cases a <;> simp_all [Fp64.neg, Fp64.isNegative]

theorem shiftOf_eq (n d : Nat) : Fp64.shiftOf n d = (n / d).log2 - 52 := by simp [Fp64.shiftOf]

theorem nearestEven_le {n d k : Nat} (hd : 0 < d) (h : n ≤ d * k) : nearestEven n d ≤ k := by
  have hq : n / d ≤ k := by
    have := Nat.div_le_div_right (c := d) h
    rwa [Nat.mul_div_cancel_left _ hd] at this
  have hn := Nat.div_add_mod n d
  rcases Nat.lt_or_ge (n / d) k with hlt | hge
  · unfold nearestEven
    dsimp only
    split_ifs <;> omega
  · have hk : n / d = k := le_antisymm hq hge
    have hr : n % d = 0 := by rw [hk] at hn; omega
    unfold nearestEven
    simp [hr, hd, hk]

theorem le_nearestEven {n d k : Nat} (hd : 0 < d) (h : d * k ≤ n) : k ≤ nearestEven n d := by
  have hq : k ≤ n / d := (Nat.le_div_iff_mul_le hd).mpr (by rwa [mul_comm])
  unfold nearestEven
  dsimp only
  split_ifs <;> omega

theorem nearestEven_exact {d k : Nat} (hd : 0 < d) : nearestEven (d * k) d = k :=
  le_antisymm (nearestEven_le hd le_rfl) (le_nearestEven hd le_rfl)

/-- The rounded integer is within half of the exact quotient. -/
theorem nearestEven_error {n d : Nat} (hd : 0 < d) :
    2 * n ≤ 2 * (d * nearestEven n d) + d ∧ 2 * (d * nearestEven n d) ≤ 2 * n + d := by
  have hn := Nat.div_add_mod n d
  have hr := Nat.mod_lt n hd
  have hs : d * (n / d + 1) = d * (n / d) + d := by ring
  unfold nearestEven
  dsimp only
  split_ifs <;> (try rw [hs]) <;> omega

/-- The magnitude a packed exponent and fraction stand for. -/
theorem magnitude_packed {shift sig : Nat} (hs : shift = 0 ∨ 2 ^ 52 ≤ sig) (hsig : sig ≤ 2 ^ 53)
    (h : (shift * 2 ^ 52 + sig) / 2 ^ 52 < 2047) :
    Fp64.magnitude ⟨(shift * 2 ^ 52 + sig) / 2 ^ 52, h⟩ (BitVec.ofNat 52 (shift * 2 ^ 52 + sig)) = sig * 2 ^ shift := by
  unfold Fp64.magnitude Fp64.significand
  simp only [BitVec.toNat_ofNat, pow2_eq]
  rw [mul_comm]
  rcases Nat.lt_or_ge sig (2 ^ 52) with h1 | h1
  · have h0 : shift = 0 := by omega
    subst h0
    rw [if_pos (by omega), show (0 * 2 ^ 52 + sig) / 2 ^ 52 - 1 = 0 by omega,
      show (0 * 2 ^ 52 + sig) % 2 ^ 52 = sig by omega]
  · rcases Nat.lt_or_ge sig (2 ^ 53) with h2 | h2
    · have hq : (shift * 2 ^ 52 + sig) / 2 ^ 52 = shift + 1 := by omega
      have hm : (shift * 2 ^ 52 + sig) % 2 ^ 52 = sig - 2 ^ 52 := by omega
      rw [hq, hm, if_neg (by omega)]
      rw [show 2 ^ 52 + (sig - 2 ^ 52) = sig by omega, show shift + 1 - 1 = shift by omega]
    · have he : sig = 2 ^ 53 := by omega
      subst he
      have hq : (shift * 2 ^ 52 + 2 ^ 53) / 2 ^ 52 = shift + 2 := by omega
      have hm : (shift * 2 ^ 52 + 2 ^ 53) % 2 ^ 52 = 0 := by omega
      rw [hq, hm, if_neg (by omega), show shift + 2 - 1 = shift + 1 by omega, pow_succ 2 shift]
      ring

/-- Where the significand of a rounded quotient lies. -/
theorem shiftOf_bounds {n d : Nat} (hd : 0 < d) :
    (Fp64.shiftOf n d = 0 ∨ d * 2 ^ Fp64.shiftOf n d * 2 ^ 52 ≤ n) ∧ n < d * 2 ^ Fp64.shiftOf n d * 2 ^ 53 := by
  have hlt : n < d * (n / d + 1) := Nat.lt_mul_div_succ n hd
  have hle : d * (n / d) ≤ n := Nat.mul_div_le n d
  rw [shiftOf_eq]
  generalize hf : n / d = f at *
  rcases Nat.lt_or_ge f (2 ^ 53) with h | h
  · have hl : f.log2 - 52 = 0 := by
      rcases Nat.eq_zero_or_pos f with h0 | h0
      · simp [h0]
      · have : f.log2 < 53 := (Nat.log2_lt (by omega)).mpr h
        omega
    rw [hl]
    refine ⟨.inl rfl, ?_⟩
    have : d * (f + 1) ≤ d * 2 ^ 53 := Nat.mul_le_mul_left d h
    simp only [pow_zero, mul_one]
    omega
  · have h0 : f ≠ 0 := by omega
    have hlog : 53 ≤ f.log2 := (Nat.le_log2 h0).mpr h
    have hp : 2 ^ f.log2 ≤ f := Nat.log2_self_le h0
    have hq : f + 1 ≤ 2 ^ (f.log2 + 1) := Nat.lt_log2_self
    have e1 : 2 ^ (f.log2 - 52) * 2 ^ 52 = 2 ^ f.log2 := by rw [← pow_add]; congr 1; omega
    have e2 : 2 ^ (f.log2 - 52) * 2 ^ 53 = 2 ^ (f.log2 + 1) := by rw [← pow_add]; congr 1; omega
    rw [mul_assoc, mul_assoc, e1, e2]
    exact ⟨.inr (le_trans (Nat.mul_le_mul_left d hp) hle), lt_of_lt_of_le hlt (Nat.mul_le_mul_left d hq)⟩

/-- Zero is rounded as any other number is. -/
theorem roundScaled_eq_roundPositive (neg : Bool) (n d : Nat) : Fp64.roundScaled neg n d = Fp64.roundPositive neg n d := by
  cases n with
  | succ n => rfl
  | zero => simp [Fp64.roundScaled, Fp64.roundPositive, shiftOf_eq, nearestEven]

/-- A rounding gives a finite datum whose magnitude is a 53-bit significand times a power of two, or overflows. -/
theorem roundScaled_cases (neg : Bool) {n d : Nat} (hd : 0 < d) :
    ∃ shift sig, shift = Fp64.shiftOf n d ∧ sig = nearestEven n (d * 2 ^ shift) ∧
      (shift = 0 ∨ 2 ^ 52 ≤ sig) ∧ sig ≤ 2 ^ 53 ∧
      ((∃ e f, Fp64.roundScaled neg n d = .finite neg e f ∧ Fp64.magnitude e f = sig * 2 ^ shift) ∨
       (Fp64.roundScaled neg n d = .inf neg ∧ 2 ^ 2098 ≤ sig * 2 ^ shift)) := by
  obtain ⟨hlo, hhi⟩ := shiftOf_bounds (n := n) hd
  set shift := Fp64.shiftOf n d with hshift
  have hd2 : 0 < d * 2 ^ shift := Nat.mul_pos hd (Nat.two_pow_pos _)
  have hsig : nearestEven n (d * 2 ^ shift) ≤ 2 ^ 53 := nearestEven_le hd2 hhi.le
  have hlo' : shift = 0 ∨ 2 ^ 52 ≤ nearestEven n (d * 2 ^ shift) :=
    hlo.imp id fun h => le_nearestEven hd2 h
  refine ⟨shift, _, rfl, rfl, hlo', hsig, ?_⟩
  rw [roundScaled_eq_roundPositive]
  unfold Fp64.roundPositive
  simp only [evalNat_eq, evalBool_eq, pow2_eq, ← hshift]
  split
  · refine .inl ⟨_, _, rfl, magnitude_packed hlo' hsig _⟩
  · next hge =>
    refine .inr ⟨rfl, ?_⟩
    generalize nearestEven n (d * 2 ^ shift) = sig at *
    rcases Nat.lt_or_ge shift 2046 with h | h
    · have hs : shift = 2045 := by omega
      have : sig = 2 ^ 53 := by omega
      rw [hs, this, ← pow_add]
    · have : 2 ^ 52 * 2 ^ 2046 ≤ sig * 2 ^ shift :=
        Nat.mul_le_mul (by omega) (pow_le_pow_right₀ one_le_two h)
      have e : (2 : Nat) ^ 2098 = 2 ^ 52 * 2 ^ 2046 := by rw [← pow_add]
      rwa [e]

/-- The magnitude that a rounding aims at keeps every power of two the quotient keeps from above. -/
theorem rounded_le {n d K : Nat} (hd : 0 < d) (h : n ≤ d * 2 ^ K) :
    nearestEven n (d * 2 ^ Fp64.shiftOf n d) * 2 ^ Fp64.shiftOf n d ≤ 2 ^ K := by
  obtain ⟨hlo, -⟩ := shiftOf_bounds (n := n) hd
  set shift := Fp64.shiftOf n d
  have hd2 : 0 < d * 2 ^ shift := Nat.mul_pos hd (Nat.two_pow_pos _)
  rcases Nat.lt_or_ge K shift with hK | hK
  · have h1 : d * 2 ^ shift * 2 ^ 52 ≤ n := hlo.resolve_left (by omega)
    have h2 : d * 2 ^ K < d * 2 ^ shift := Nat.mul_lt_mul_of_pos_left (Nat.pow_lt_pow_right (by decide) hK) hd
    have h3 : d * 2 ^ shift * 1 ≤ d * 2 ^ shift * 2 ^ 52 := Nat.mul_le_mul_left _ (by decide)
    omega
  · have e : 2 ^ K = 2 ^ (K - shift) * 2 ^ shift := by rw [← pow_add]; congr 1; omega
    rw [e]
    refine Nat.mul_le_mul_right _ (nearestEven_le hd2 ?_)
    rw [e] at h
    calc n ≤ d * (2 ^ (K - shift) * 2 ^ shift) := h
      _ = d * 2 ^ shift * 2 ^ (K - shift) := by ring

/-- ... and from below. -/
theorem le_rounded {n d K : Nat} (hd : 0 < d) (h : d * 2 ^ K ≤ n) :
    2 ^ K ≤ nearestEven n (d * 2 ^ Fp64.shiftOf n d) * 2 ^ Fp64.shiftOf n d := by
  obtain ⟨hlo, hhi⟩ := shiftOf_bounds (n := n) hd
  set shift := Fp64.shiftOf n d
  have hd2 : 0 < d * 2 ^ shift := Nat.mul_pos hd (Nat.two_pow_pos _)
  rcases Nat.lt_or_ge K shift with hK | hK
  · have h1 : d * 2 ^ shift * 2 ^ 52 ≤ n := hlo.resolve_left (by omega)
    have h2 := le_nearestEven hd2 h1
    calc 2 ^ K ≤ 1 * 2 ^ shift := by rw [one_mul]; exact Nat.pow_le_pow_right (by decide) hK.le
      _ ≤ _ := Nat.mul_le_mul_right _ (le_trans (by decide) h2)
  · have e : 2 ^ K = 2 ^ (K - shift) * 2 ^ shift := by rw [← pow_add]; congr 1; omega
    rw [e]
    refine Nat.mul_le_mul_right _ (le_nearestEven hd2 ?_)
    rw [e] at h
    calc d * 2 ^ shift * 2 ^ (K - shift) = d * (2 ^ (K - shift) * 2 ^ shift) := by ring
      _ ≤ n := h

/-- A quotient below 2^K with K at most 2097 rounds to a finite datum of magnitude at most 2^K. -/
theorem roundScaled_finite {neg : Bool} {n d K : Nat} (hd : 0 < d) (hK : K < 2098) (h : n ≤ d * 2 ^ K) :
    ∃ e f, Fp64.roundScaled neg n d = .finite neg e f ∧ Fp64.magnitude e f ≤ 2 ^ K := by
  obtain ⟨shift, sig, rfl, rfl, -, -, hc⟩ := roundScaled_cases neg (n := n) hd
  have hb := rounded_le hd h
  rcases hc with ⟨e, f, h1, h2⟩ | ⟨-, h2⟩
  · exact ⟨e, f, h1, h2 ▸ hb⟩
  · have : 2 ^ K < 2 ^ 2098 := pow_lt_pow_right₀ one_lt_two hK
    exact absurd (le_trans h2 hb) (Nat.not_le.mpr this)

/-- A whole number of least units below 2^53 is rounded to itself. -/
theorem roundScaled_exact {neg : Bool} {d k : Nat} (hd : 0 < d) (hk : k < 2 ^ 53) :
    ∃ e f, Fp64.roundScaled neg (d * k) d = .finite neg e f ∧ Fp64.magnitude e f = k := by
  obtain ⟨shift, sig, hs, rfl, -, -, hc⟩ := roundScaled_cases neg (n := d * k) hd
  have h0 : shift = 0 := by
    rw [hs, shiftOf_eq, Nat.mul_div_cancel_left _ hd]
    rcases Nat.eq_zero_or_pos k with h0 | h0
    · simp [h0]
    · have : k.log2 < 53 := (Nat.log2_lt (by omega)).mpr hk
      omega
  subst h0
  rw [show d * 2 ^ 0 = d by simp, nearestEven_exact hd] at hc
  rcases hc with ⟨e, f, h1, h2⟩ | ⟨-, h2⟩
  · exact ⟨e, f, h1, by simpa using h2⟩
  · rw [pow_zero, mul_one] at h2
    have h3 : (2 : Nat) ^ 53 < 2 ^ 2098 := pow_lt_pow_right₀ one_lt_two (by decide)
    exact absurd (lt_of_le_of_lt h2 (lt_trans hk h3)) (lt_irrefl _)

/-- A finite datum is below 2^2098 least units. -/
theorem magnitude_lt (e : Fin 2047) (f : BitVec 52) : Fp64.magnitude e f < 2 ^ 2098 := by
  have hs : Fp64.significand e f < 2 ^ 53 := by
    unfold Fp64.significand
    have := f.isLt
    split <;> omega
  unfold Fp64.magnitude
  rw [pow2_eq, mul_comm]
  calc Fp64.significand e f * 2 ^ (e.val - 1) < 2 ^ 53 * 2 ^ (e.val - 1) :=
        Nat.mul_lt_mul_of_pos_right hs (Nat.two_pow_pos _)
    _ ≤ 2 ^ 53 * 2 ^ 2045 := Nat.mul_le_mul_left _ (pow_le_pow_right₀ one_le_two (by omega))
    _ = 2 ^ 2098 := by rw [← pow_add]

/-- No multiple of `d` is nearer to `n` than the rounded one. -/
theorem nearestEven_nearest {n d : Nat} (hd : 0 < d) (j : Int) :
    |(d : Int) * nearestEven n d - n| ≤ |(d : Int) * j - n| := by
  obtain ⟨h1, h2⟩ := nearestEven_error (n := n) hd
  generalize nearestEven n d = q at *
  rcases lt_trichotomy j q with h | rfl | h
  · have : (d : Int) * j ≤ d * q - d := by nlinarith
    rw [abs_le]
    have : |(d : Int) * j - n| ≥ n - d * j := by rw [abs_sub_comm]; exact le_abs_self _
    constructor <;> zify at h1 h2 <;> linarith
  · exact le_rfl
  · have : (d : Int) * q + d ≤ d * j := by nlinarith
    rw [abs_le]
    have : |(d : Int) * j - n| ≥ d * j - n := le_abs_self _
    constructor <;> zify at h1 h2 <;> linarith

/-- When another multiple is as near, the rounded one is even. -/
theorem nearestEven_tie {n d : Nat} (hd : 0 < d) {j : Int} (hj : j ≠ nearestEven n d)
    (h : |(d : Int) * nearestEven n d - n| = |(d : Int) * j - n|) : nearestEven n d % 2 = 0 := by
  have hn := Nat.div_add_mod n d
  have hr := Nat.mod_lt n hd
  have hs : d * (n / d + 1) = d * (n / d) + d := by ring
  by_contra hodd
  have hstrict : 2 * |(d : Int) * nearestEven n d - n| < d := by
    have hcase : (nearestEven n d = n / d ∧ 2 * (n % d) < d) ∨ (nearestEven n d = n / d + 1 ∧ d < 2 * (n % d)) := by
      unfold nearestEven at hodd ⊢
      dsimp only at hodd ⊢
      split_ifs at hodd ⊢ <;> omega
    rcases hcase with ⟨e, hlt⟩ | ⟨e, hlt⟩ <;> rw [e] <;> zify at hn hs hlt hr
    · have : |(d : Int) * ((n / d : Nat) : Int) - n| = n % d := by
        push_cast
        rw [show (d : Int) * (n / d) - n = -(n % d) by linarith, abs_neg, abs_of_nonneg (Int.emod_nonneg _ (by linarith))]
      rw [this]; linarith
    · have : |(d : Int) * ((n / d + 1 : Nat) : Int) - n| = d - n % d := by
        push_cast
        rw [show (d : Int) * (n / d + 1) - n = d - n % d by linarith, abs_of_nonneg (by linarith)]
      rw [this]; linarith
  generalize nearestEven n d = q at *
  rcases lt_or_gt_of_ne hj with hl | hl
  · have h1 : (d : Int) * j ≤ d * q - d := by nlinarith
    have e1 := le_abs_self ((d : Int) * q - n)
    have e2 := neg_abs_le ((d : Int) * j - n)
    rw [← h] at e2
    linarith
  · have h1 : (d : Int) * q + d ≤ d * j := by nlinarith
    have e1 := neg_abs_le ((d : Int) * q - n)
    have e2 := le_abs_self ((d : Int) * j - n)
    rw [← h] at e2
    linarith

/-- A finite magnitude is a significand below 2^53 at some place. -/
theorem magnitude_form (e : Fin 2047) (f : BitVec 52) :
    ∃ sig place, sig < 2 ^ 53 ∧ Fp64.magnitude e f = sig * 2 ^ place := by
  refine ⟨Fp64.significand e f, e.val - 1, ?_, by rw [Fp64.magnitude, pow2_eq, mul_comm]⟩
  unfold Fp64.significand
  have := f.isLt
  split <;> omega

/-- The magnitude a rounding aims at is at least as near to n / d as any finite datum of either sign, and when another one is
as near, its significand is even. -/
theorem rounded_nearest {n d : Nat} (hd : 0 < d) (e : Fin 2047) (f : BitVec 52) (neg : Bool) :
    let shift := Fp64.shiftOf n d
    let sig := nearestEven n (d * 2 ^ shift)
    |(d : Int) * (sig * 2 ^ shift) - n| ≤ |(d : Int) * Fp64.scaled neg e f - n| ∧
    (|(d : Int) * (sig * 2 ^ shift) - n| = |(d : Int) * Fp64.scaled neg e f - n| →
      Fp64.scaled neg e f ≠ sig * 2 ^ shift → sig % 2 = 0) := by
  intro shift sig
  obtain ⟨hlo, hhi⟩ := shiftOf_bounds (n := n) hd
  have hd2 : 0 < d * 2 ^ shift := Nat.mul_pos hd (Nat.two_pow_pos _)
  have hnear := fun j => nearestEven_nearest (n := n) hd2 j
  have htie := fun (j : Int) => nearestEven_tie (n := n) hd2 (j := j)
  obtain ⟨s', k, hs', hm⟩ := magnitude_form e f
  have ecast : ((d * 2 ^ shift : Nat) : Int) = (d : Int) * 2 ^ shift := by push_cast; ring
  -- the datum as a multiple of the place, or below the binade
  have hcase : (∃ j : Int, Fp64.scaled neg e f = j * 2 ^ shift) ∨
      (Fp64.scaled neg e f < 2 ^ 52 * 2 ^ shift ∧ d * 2 ^ shift * 2 ^ 52 ≤ n) := by
    rcases Nat.lt_or_ge k shift with hk | hk
    · right
      have h1 := hlo.resolve_left (show ¬ shift = 0 by omega)
      refine ⟨?_, h1⟩
      have hnat : Fp64.magnitude e f < 2 ^ 52 * 2 ^ shift := by
        rw [hm]
        calc s' * 2 ^ k < 2 ^ 53 * 2 ^ k := Nat.mul_lt_mul_of_pos_right hs' (Nat.two_pow_pos _)
          _ = 2 ^ 52 * 2 ^ (k + 1) := by ring
          _ ≤ 2 ^ 52 * 2 ^ shift := Nat.mul_le_mul_left _ (Nat.pow_le_pow_right (by decide) hk)
      zify at hnat
      unfold Fp64.scaled
      split
      · have : (0 : Int) ≤ Fp64.magnitude e f := by positivity
        linarith
      · exact hnat
    · left
      refine ⟨(if neg then -1 else 1) * (s' * 2 ^ (k - shift)), ?_⟩
      have : (Fp64.magnitude e f : Int) = s' * 2 ^ (k - shift) * 2 ^ shift := by
        rw [hm, mul_assoc, ← pow_add, Nat.sub_add_cancel hk]; push_cast; ring
      unfold Fp64.scaled
      rw [this]
      split <;> ring
  have e0 : (d : Int) * (sig * 2 ^ shift) = ((d * 2 ^ shift : Nat) : Int) * sig := by rw [ecast]; ring
  rw [e0]
  rcases hcase with ⟨j, hj⟩ | ⟨hlt, hn⟩
  · have e1 : (d : Int) * Fp64.scaled neg e f = ((d * 2 ^ shift : Nat) : Int) * j := by rw [hj, ecast]; ring
    rw [e1]
    refine ⟨hnear j, fun h hne => htie j ?_ h⟩
    rintro rfl
    exact hne hj
  · have hn' : ((d * 2 ^ shift : Nat) : Int) * 2 ^ 52 ≤ n := by exact_mod_cast hn
    have h1 : (d : Int) * Fp64.scaled neg e f < ((d * 2 ^ shift : Nat) : Int) * 2 ^ 52 := by
      rw [ecast]
      have : (0 : Int) < d := by exact_mod_cast hd
      nlinarith
    have h2 := hnear (2 ^ 52)
    have h3 : |((d * 2 ^ shift : Nat) : Int) * 2 ^ 52 - n| < |(d : Int) * Fp64.scaled neg e f - n| := by
      rw [abs_of_nonpos (by linarith), abs_of_nonpos (by linarith)]
      linarith
    exact ⟨(lt_of_le_of_lt h2 h3).le, fun h => absurd h (lt_of_le_of_lt h2 h3).ne⟩

end Sys2Proof
end

