-- ==== Sys2Proof/Laws/State.lean ====
section
/-! SUPPORT. The fields of the state and of the latch after each update. -/

namespace Sys2Proof.Machine

section Blank
variable {α : Type} (z : α)

@[simp] theorem blankResponse_status : (blankResponse z).status = 0 := rfl
@[simp] theorem blankResponse_e : (blankResponse z).e = 0 := rfl
@[simp] theorem blankResponse_m : (blankResponse z).m = 0 := rfl
@[simp] theorem blankResponse_m12 : (blankResponse z).m12 = 0 := rfl
@[simp] theorem blankResponse_c : (blankResponse z).c = 0 := rfl
@[simp] theorem blankResponse_k : (blankResponse z).k = 0 := rfl
@[simp] theorem blankResponse_ok : (blankResponse z).ok = false := rfl
@[simp] theorem blankResponse_word : (blankResponse z).word = 0 := rfl
@[simp] theorem blankResponse_val : (blankResponse z).val = 0 := rfl
@[simp] theorem blankResponse_code : (blankResponse z).code = ⟨0, 0, 0, 0⟩ := rfl
@[simp] theorem blankResponse_X : (blankResponse z).X = z := rfl
@[simp] theorem blankResponse_Y : (blankResponse z).Y = z := rfl
@[simp] theorem blankResponse_Z : (blankResponse z).Z = z := rfl
@[simp] theorem blankResponse_L : (blankResponse z).L = z := rfl
@[simp] theorem blankResponse_cx : (blankResponse z).cx = z := rfl
@[simp] theorem blankResponse_cy : (blankResponse z).cy = z := rfl
@[simp] theorem blankResponse_lux : (blankResponse z).lux = z := rfl
@[simp] theorem blankResponse_valid : (blankResponse z).valid = false := rfl
@[simp] theorem blankResponse_cct : (blankResponse z).cct = z := rfl

end Blank

@[simp] theorem params_fp (s : State) : s.params.fp = Fp.binary64 := rfl
@[simp] theorem params_matrix (s : State) : s.params.matrix = s.build.matrix := rfl
@[simp] theorem params_narrow32 (s : State) : s.params.narrow32 = s.build.narrow32 := rfl
@[simp] theorem params_with_host (s : State) (h : List HostAction) : ({ s with host := h } : State).params = s.params := rfl
@[simp] theorem params_with_rsp (s : State) (r : Response Fp64) : ({ s with rsp := r } : State).params = s.params := rfl

@[simp] theorem resetBlock_rsp (s : State) : s.resetBlock.rsp = blankResponse Fp64.posZero := rfl
@[simp] theorem resetBlock_build (s : State) : s.resetBlock.build = s.build := rfl
@[simp] theorem resetBlock_host (s : State) : s.resetBlock.host = s.host := rfl

@[simp] theorem withFetchWord_rsp (s : State) (nbits w : Nat) : (s.withFetchWord nbits w).rsp = s.rsp := rfl
@[simp] theorem withFetchWord_build (s : State) (nbits w : Nat) : (s.withFetchWord nbits w).build = s.build := rfl
@[simp] theorem withFetchWord_host (s : State) (nbits w : Nat) :
    (s.withFetchWord nbits w).host = .request (tableRequest nbits w) :: s.host := rfl

@[simp] theorem zeroResponse_binary64 (s : State) : zeroResponse s.params = blankResponse Fp64.posZero := rfl
@[simp] theorem okResponse_binary64 (s : State) :
    okResponse s.params = { blankResponse Fp64.posZero with status := statusOk } := rfl
@[simp] theorem errorResponse_binary64 (s : State) (c : StatusCode) :
    errorResponse s.params c = { blankResponse Fp64.posZero with status := c } := rfl

/-- Latching writes `rsp` and nothing else. -/
@[simp] theorem latch_eq (s : State) (r : Response Fp64) : s.latch r = .next { s with rsp := r } := rfl

end Sys2Proof.Machine
end

