-- ==== Sys2Proof/Laws/Operands.lean ====
section
/-! SUPPORT. What the shared operations on operands can do: narrowing, setting a field, copying one, filling a frame, and the XOR of
selected bits. -/

namespace Sys2Proof.Machine

@[simp] theorem narrow_false (full : Code) : narrow false full = full := rfl

/-- A narrowed code is the full one modulo 2^32. -/
@[simp] theorem narrow_true_toNat (full : Code) : (narrow true full).toNat = full.toNat % 2 ^ 32 := by
  have h : full.toNat % 2 ^ 32 < 2 ^ 35 := lt_of_lt_of_le (Nat.mod_lt _ (by decide)) (by decide)
  simpa [narrow] using h

/-- A number that fits is read back from its field. -/
theorem int_setInt {α : Type} (r : Request α) (f : IntOperand) (n : Nat) (h : n < 2 ^ f.width) :
    (r.setInt f n).int f = n := by
  cases f <;> exact Nat.mod_eq_of_lt h

/-- Setting one field leaves every other integer field alone. -/
theorem int_setInt_of_ne {α : Type} (r : Request α) {f g : IntOperand} (n : Nat) (h : g ≠ f) :
    (r.setInt f n).int g = r.int g := by
  cases f <;> cases g <;> first | rfl | exact absurd rfl h

@[simp] theorem setInt_op {α : Type} (r : Request α) (f : IntOperand) (n : Nat) : (r.setInt f n).op = r.op := by
  cases f <;> rfl

@[simp] theorem setInt_fp {α : Type} (r : Request α) (f : IntOperand) (n : Nat) (g : FpOperand) :
    (r.setInt f n).fp g = r.fp g := by
  cases f <;> rfl

/-- An integer field of a response is below 2 to its width; these are the widths. -/
def resultWidth : IntResult → Nat
  | .status => 3
  | .e => 4
  | .m => 20
  | .m12 => 12
  | .c => 4
  | .k => 4
  | .ok => 1
  | .word => 16
  | .val => 35
  | .code0 => 35
  | .code1 => 35
  | .code2 => 35
  | .code3 => 35
  | .valid => 1

/-- A response field always fits an operand field at least as wide (R71). -/
theorem int_lt {α : Type} (r : Response α) (f : IntResult) : r.int f < 2 ^ resultWidth f := by
  cases f
  case ok => exact Bool.toNat_lt r.ok
  case valid => exact Bool.toNat_lt r.valid
  all_goals exact BitVec.isLt _

/-- One more byte moves the earlier ones up and comes in at the bottom. -/
theorem frameOfBytes_append (bytes : List Byte) (b : Byte) :
    frameOfBytes (bytes ++ [b]) = frameOfBytes bytes <<< 8 ||| b.setWidth 128 := by
  simp [frameOfBytes]

theorem push_byte_low (frame : Frame) (b : Byte) : (frame <<< 8 ||| b.setWidth 128).extractLsb' 0 8 = b := by
  ext i hi
  have : i < 128 := by omega
  simp [hi, this]

theorem push_byte_high (frame : Frame) (b : Byte) (j : Nat) (hj : j < 15) :
    (frame <<< 8 ||| b.setWidth 128).extractLsb' (8 * (j + 1)) 8 = frame.extractLsb' (8 * j) 8 := by
  ext i hi
  have h1 : 8 * (j + 1) + i < 128 := by omega
  have h2 : ¬ 8 * (j + 1) + i < 8 := by omega
  have h3 : 8 * (j + 1) + i - 8 = 8 * j + i := by omega
  have h4 : b.getLsbD (8 * (j + 1) + i) = false := BitVec.getLsbD_of_ge b _ (by omega)
  have h5 : 8 * j + i < 128 := by omega
  simp [h1, h2, h3, h4, h5]

/-- The XOR of selected bits is linear. -/
theorem xorBits_xor {w : Nat} (a b : BitVec w) (l : List Nat) : xorBits (a ^^^ b) l = (xorBits a l ^^ xorBits b l) := by
  induction l with
  | nil => rfl
  | cons i rest ih =>
    simp only [xorBits, BitVec.getLsbD_xor, ih]
    cases a.getLsbD i <;> cases b.getLsbD i <;> cases xorBits a rest <;> cases xorBits b rest <;> rfl

@[simp] theorem xorBits_zero {w : Nat} (l : List Nat) : xorBits (0 : BitVec w) l = false := by
  induction l with
  | nil => rfl
  | cons i rest ih => rw [xorBits, ih]; simp

end Sys2Proof.Machine
end

