-- ==== Sys2Proof/Laws/PerInstr.lean ====
section
/-! SUPPORT. Statements about every instruction as syntax, one lemma per constructor. -/

namespace Sys2Proof.Laws.OpField

/-- The request of an instruction has a code of the table row that bears the instruction's mnemonic (R44). -/
def Statement (i : Instr) : Prop :=
  ∃ (k : Nat) (row : OpRow), opTable[k]? = some row ∧ row.mnemonic = i.mnemonic ∧ row.covers (encode i).op = true

theorem covers_full (name : String) (op : BitVec 4) : OpRow.covers ⟨name, op, 0xF⟩ op = true := by
  have h : ∀ p : BitVec 4, p &&& 15#4 = p := by decide
  simp [OpRow.covers, h]

theorem covers_reserved (name : String) (low : BitVec 2) : OpRow.covers ⟨name, 0xC, 0xC⟩ (0b11#2 ++ low) = true := by
  have h : ∀ p : BitVec 2, (0b11#2 ++ p) &&& 12#4 = 12#4 := by decide
  simp [OpRow.covers, h]

theorem pack (e : Exponent) (m12 : ThrMantissa) : Statement (.pack e m12) :=
  ⟨0, _, rfl, rfl, covers_full _ _⟩

theorem unpack (word : RegWord) : Statement (.unpack word) :=
  ⟨1, _, rfl, rfl, covers_full _ _⟩

theorem deframe (record : ChanRecord) : Statement (.deframe record) :=
  ⟨2, _, rfl, rfl, covers_full _ _⟩

theorem crc4 (e : Exponent) (m : Mantissa) (c : Nibble) : Statement (.crc4 e m c) :=
  ⟨3, _, rfl, rfl, covers_full _ _⟩

theorem verify (e : Exponent) (m : Mantissa) (c k : Nibble) : Statement (.verify e m c k) :=
  ⟨4, _, rfl, rfl, covers_full _ _⟩

theorem recon (e : Exponent) (m : Mantissa) : Statement (.recon e m) :=
  ⟨5, _, rfl, rfl, covers_full _ _⟩

theorem channels (frame : Frame) : Statement (.channels frame) :=
  ⟨6, _, rfl, rfl, covers_full _ _⟩

theorem thrEnc (v : ThrValue) : Statement (.thrEnc v) :=
  ⟨7, _, rfl, rfl, covers_full _ _⟩

theorem thrDec (word : RegWord) : Statement (.thrDec word) :=
  ⟨8, _, rfl, rfl, covers_full _ _⟩

theorem matmul (ch : Quad Code) : Statement (.matmul ch) :=
  ⟨9, _, rfl, rfl, covers_full _ _⟩

theorem color (ch : Quad Code) : Statement (.color ch) :=
  ⟨10, _, rfl, rfl, covers_full _ _⟩

theorem cct (cx cy : Fp64) : Statement (.cct cx cy) :=
  ⟨11, _, rfl, rfl, covers_full _ _⟩

theorem rsvd (low : BitVec 2) : Statement (.rsvd low) :=
  ⟨12, _, rfl, rfl, covers_reserved _ _⟩

end Sys2Proof.Laws.OpField
end

