-- ==== Sys2Proof/Laws/Step.lean ====
section
/-! SUPPORT. What exec and step can do, said once. -/

namespace Sys2Proof.Machine

/-- The response an instruction gives: `Exec` of R22 on its own request. -/
theorem exec_eq_latch (i : Instr) (s : State) : ∃ r, exec i s = .next { s with rsp := r } := by
  cases i <;> exact ⟨_, rfl⟩

/-- If exec answers a next state, only `rsp` differs. -/
theorem exec_next_frame {i : Instr} {s t : State} (h : exec i s = .next t) :
    t.build = s.build ∧ t.host = s.host := by
  obtain ⟨r, hr⟩ := exec_eq_latch i s
  rw [hr] at h
  cases h
  exact ⟨rfl, rfl⟩

/-- A setting either gives a request or is refused for its own reason. -/
theorem applySettings_cons_ok {rsp : Response Fp64} {r r' : Request Fp64} {x : Setting} {xs : List Setting}
    (h : applySetting rsp r x = .ok r') : applySettings rsp r (x :: xs) = applySettings rsp r' xs := by
  simp [applySettings, h]

theorem applySettings_cons_error {rsp : Response Fp64} {r : Request Fp64} {x : Setting} {xs : List Setting} {why : Refusal}
    (h : applySetting rsp r x = .error why) : applySettings rsp r (x :: xs) = .error why := by
  simp [applySettings, h]

/-- Settings are taken in order: the ones before come first, and their refusal is the line's. -/
theorem applySettings_append (rsp : Response Fp64) (r : Request Fp64) (pre more : List Setting) :
    applySettings rsp r (pre ++ more) =
      match applySettings rsp r pre with
      | .ok r' => applySettings rsp r' more
      | .error why => .error why := by
  induction pre generalizing r with
  | nil => rfl
  | cons x xs ih =>
    simp only [List.cons_append, applySettings]
    cases applySetting rsp r x with
    | ok r' => exact ih r'
    | error why => rfl

/-- Why a setting can be refused: a number or a copied field that does not fit, or a buffer of another size. -/
theorem applySetting_error {rsp : Response Fp64} {r : Request Fp64} {x : Setting} {why : Refusal}
    (h : applySetting rsp r x = .error why) :
    (∃ f n, why = .operandOutOfRange f n ∧ 2 ^ f.width ≤ n ∧ (x = .num f n ∨ ∃ src, x = .copy f src ∧ rsp.int src = n)) ∨
    ∃ bytes, why = .frameSize bytes.length ∧ bytes.length ≠ 16 ∧ x = .buffer bytes := by
  cases x with
  | num f n =>
    simp only [applySetting, assign] at h
    split at h
    · cases h
    · next hn => cases h; exact .inl ⟨f, n, rfl, Nat.not_lt.mp hn, .inl rfl⟩
  | lit f x => cases h
  | copy f src =>
    simp only [applySetting, assign] at h
    split at h
    · cases h
    · next hn => cases h; exact .inl ⟨f, _, rfl, Nat.not_lt.mp hn, .inr ⟨src, rfl, rfl⟩⟩
  | copyFp f src => cases h
  | buffer bytes =>
    simp only [applySetting] at h
    split at h
    · cases h
    · next hb => cases h; exact .inr ⟨bytes, rfl, hb, rfl⟩

/-- A refused line is refused for one of its settings. -/
theorem applySettings_error {rsp : Response Fp64} {r : Request Fp64} {xs : List Setting} {why : Refusal}
    (h : applySettings rsp r xs = .error why) : ∃ x ∈ xs, ∃ r', applySetting rsp r' x = .error why := by
  induction xs generalizing r with
  | nil => cases h
  | cons x xs ih =>
    simp only [applySettings] at h
    split at h
    · obtain ⟨y, hy, hr⟩ := ih h
      exact ⟨y, List.mem_cons_of_mem x hy, hr⟩
    · next w hw => cases h; exact ⟨x, List.mem_cons_self, r, hw⟩

/-- A number that fits is assigned. -/
theorem assign_of_lt {r : Request Fp64} {f : IntOperand} {n : Nat} (h : n < 2 ^ f.width) :
    assign r f n = .ok (r.setInt f n) := by
  simp [assign, h]

/-- A number that does not fit is refused. -/
theorem assign_of_ge {r : Request Fp64} {f : IntOperand} {n : Nat} (h : 2 ^ f.width ≤ n) :
    assign r f n = .error (.operandOutOfRange f n) := by
  simp [assign, Nat.not_lt.mpr h]

/-- Everything a step can answer with a next state: nothing to do, a request executed, a host test, a reset, a read. -/
theorem step_next_cases {s t : State} (h : step s = .next t) :
    (s.host = [] ∧ t = s) ∨
    (∃ a rest, s.host = a :: rest ∧
      ((∃ i, exec i { s with host := rest } = .next t) ∨
       (∃ n, a = .skipUnlessOk n ∧
          t = if s.rsp.status = statusOk then { s with host := rest } else { s with host := rest.drop n }) ∨
       (a = .reset ∧ t = { s with host := rest, rsp := blankResponse Fp64.posZero }) ∨
       (a = .readRsp ∧ t = { s with host := rest }))) := by
  unfold step at h
  split at h
  · next hh => cases h; exact .inl ⟨hh, rfl⟩
  · next a rest hh =>
    refine .inr ⟨a, rest, hh, ?_⟩
    cases a with
    | request r => exact .inl ⟨_, h⟩
    | line op settings =>
      simp only [hostAct] at h
      split at h
      · exact .inl ⟨_, h⟩
      · cases h
    | skipUnlessOk n =>
      refine .inr (.inl ⟨n, rfl, ?_⟩)
      simp only [hostAct] at h
      cases h
      rfl
    | reset => cases h; exact .inr (.inr (.inl ⟨rfl, rfl⟩))
    | readRsp => cases h; exact .inr (.inr (.inr ⟨rfl, rfl⟩))
    | overlapRequest a b => cases h
    | overlapReset a => cases h

/-- Decoding a request record and executing it is one request of the host. -/
theorem step_request {s : State} {r : Request Fp64} {rest : List HostAction} (h : s.host = .request r :: rest) :
    step s = issue r { s with host := rest } := by
  simp [step, h, hostAct]

/-- A line whose settings give a request is that request. -/
theorem step_line_ok {s : State} {op : BitVec 4} {xs : List Setting} {rest : List HostAction} {r : Request Fp64}
    (h : s.host = .line op xs :: rest) (hr : applySettings s.rsp (blankRequest op) xs = .ok r) :
    step s = issue r { s with host := rest } := by
  simp [step, h, hostAct, hr]

/-- A line whose settings are refused is refused for that reason. -/
theorem step_line_error {s : State} {op : BitVec 4} {xs : List Setting} {rest : List HostAction} {why : Refusal}
    (h : s.host = .line op xs :: rest) (hr : applySettings s.rsp (blankRequest op) xs = .error why) :
    step s = .refused why := by
  simp [step, h, hostAct, hr]

end Sys2Proof.Machine
end

