-- ==== Sys2Proof/Tests/Slice0.lean ====
section
/-! SUPPORT. Tests of the model: decoding, refused terms, the spec's own vectors (spec file 95, cited by its sections), and for every
obligation with hypotheses a state and operands that meet them. -/

namespace Sys2Proof.Tests

open Sys2Proof.Machine Sys2Proof.Safety

/-! ### Helpers -/

/-- binary64 +0, 1 and -1. -/
def fp0 : Fp64 := .finite false 0 0
def fp1 : Fp64 := .finite false 1023 0
def fpM1 : Fp64 := .finite true 1023 0

/-- The identity matrix TM of spec file 95, and TM2, where m0x = -1. -/
def matrixTM : CalMatrix Fp64 :=
  ⟨⟨fp1, fp0, fp0, fp0⟩, ⟨fp0, fp1, fp0, fp0⟩, ⟨fp0, fp0, fp1, fp0⟩, ⟨fp0, fp0, fp0, fp1⟩⟩
def matrixTM2 : CalMatrix Fp64 :=
  ⟨⟨fpM1, fp0, fp0, fp0⟩, ⟨fp0, fp1, fp0, fp0⟩, ⟨fp0, fp0, fp1, fp0⟩, ⟨fp0, fp0, fp0, fp1⟩⟩

/-- A block under a matrix, with what its host does next. -/
def block (M : CalMatrix Fp64) (narrow32 : Bool) (host : List HostAction) : State :=
  { rsp := blankResponse fp0, build := { matrix := M, narrow32 := narrow32 }, host := host }

/-- The block of the tests: TM, exact widths. -/
def block0 (host : List HostAction) : State := block matrixTM false host

/-- The response an outcome leaves. -/
def rspOf (o : Host.Outcome State Fault Refusal) : Option (Response Fp64) :=
  match o with
  | .next s => some s.rsp
  | .fault _ => none
  | .refused _ => none

/-- The status and the colour temperature an outcome leaves. -/
def cctOf (o : Host.Outcome State Fault Refusal) : Option (StatusCode × Fp64) :=
  (rspOf o).map fun r => (r.status, r.cct)

/-- Why an outcome is a refusal. -/
def whyOf (o : Host.Outcome State Fault Refusal) : Option Refusal :=
  match o with
  | .next _ => none
  | .fault _ => none
  | .refused why => some why

/-- A response with status OK and every other field 0. -/
def okR : Response Fp64 := { blankResponse fp0 with status := 1 }

/-! ### Decoding: words written out from the table of R44, with the operands of programs P1 to P5 -/

theorem test_decode_pack : decode { blankRequest 0b0000 with e := 7, m12 := 0xFFF } = .pack 7 0xFFF := by decide
theorem test_decode_unpack : decode { blankRequest 0b0001 with word := 0xCABC } = .unpack 0xCABC := by decide
theorem test_decode_deframe : decode { blankRequest 0b0010 with record := 0x30012352 } = .deframe 0x30012352 := by decide
theorem test_decode_crc4 : decode { blankRequest 0b0011 with e := 3, m := 0x00123, c := 5 } = .crc4 3 0x00123 5 := by decide
theorem test_decode_verify :
    decode { blankRequest 0b0100 with e := 3, m := 0x00123, c := 5, k := 2 } = .verify 3 0x00123 5 2 := by decide
theorem test_decode_recon : decode { blankRequest 0b0101 with e := 3, m := 0x00123 } = .recon 3 0x00123 := by decide
theorem test_decode_channels :
    decode { blankRequest 0b0110 with frame := 0x00000110000001221000013200000541 } =
      .channels 0x00000110000001221000013200000541 := by decide
theorem test_decode_thrEnc : decode { blankRequest 0b0111 with v := 0x00ABCDEF } = .thrEnc 0x00ABCDEF := by decide
theorem test_decode_thrDec : decode { blankRequest 0b1000 with word := 0xCABC } = .thrDec 0xCABC := by decide
theorem test_decode_matmul : decode { blankRequest 0b1001 with ch := ⟨1, 1, 2, 5⟩ } = .matmul ⟨1, 1, 2, 5⟩ := by decide
theorem test_decode_color : decode { blankRequest 0b1010 with ch := ⟨0, 0, 0, 7⟩ } = .color ⟨0, 0, 0, 7⟩ := by decide
theorem test_decode_cct : decode { blankRequest 0b1011 with cx := fp1, cy := fp0 } = .cct fp1 fp0 := by decide
theorem test_decode_rsvd :
    [0b1100, 0b1101, 0b1110, 0b1111].map (fun op => decode { blankRequest op with e := 1, word := 3 }) =
      [.rsvd 0, .rsvd 1, .rsvd 2, .rsvd 3] := by decide

/-- Table words: bit 3:0 is `op`, and step runs the word's instruction first. -/
theorem test_table_words :
    decodeTableWord 8 0x02 = some (.deframe 0) ∧ decodeTableWord 4 0xD = some (.rsvd 1) ∧
    rspOf (step ((block0 []).withFetchWord 8 0x0E)) = some { blankResponse fp0 with status := 5 } := by decide

/-! ### WellFormed refuses -/

theorem test_illFormed_num_e : Setting.wellFormed (.num .e 0x10) = false := by decide
theorem test_illFormed_num_m : Setting.wellFormed (.num .m 0x100000) = false := by decide
theorem test_illFormed_num_m12 : Setting.wellFormed (.num .m12 0x1000) = false := by decide
theorem test_illFormed_num_word : Setting.wellFormed (.num .word 0x10000) = false := by decide
theorem test_illFormed_num_v : Setting.wellFormed (.num .v 0x100000000) = false := by decide
theorem test_illFormed_num_ch : Setting.wellFormed (.num .ch3 0x800000000) = false := by decide
theorem test_illFormed_buffer : Setting.wellFormed (.buffer (List.replicate 15 0)) = false := by decide
theorem test_illFormed_line : HostAction.wellFormed (.line 0x0 [.num .e 7, .num .m12 0x1000]) = false := by decide
theorem test_illFormed_overlap :
    HostAction.wellFormed (.overlapRequest (blankRequest 0) (blankRequest 1)) = false ∧
    HostAction.wellFormed (.overlapReset (blankRequest 0)) = false := by decide
theorem test_wellFormed_line : HostAction.wellFormed (.line 0x0 [.num .e 0xF, .num .m12 0xFFF]) = true := by decide

/-! ### Vectors of spec file 95, sections 1 and 2 -/

/-- Section 2.1. -/
theorem test_pack : rspOf (exec (.pack 0xC 0xABC) (block0 [])) = some { okR with word := 0xCABC } := by decide
theorem test_unpack : rspOf (exec (.unpack 0xCABC) (block0 [])) = some { okR with e := 0xC, m12 := 0xABC } := by decide
/-- Section 2.2. -/
theorem test_deframe :
    rspOf (exec (.deframe 0x6ABCDEAB) (block0 [])) = some { okR with e := 6, m := 0xABCDE, c := 10, k := 11 } := by decide
/-- Section 2.3. -/
theorem test_crc4 : rspOf (exec (.crc4 6 0xABCDE 0xA) (block0 [])) = some { okR with k := 0xB } := by decide
theorem test_crc4_ones : crc4 0xF 0xFFFFF 0xF = 0xC ∧ crc4 7 0x7FFFF 0xC = 6 ∧ crc4 3 0x00123 5 = 2 := by decide
theorem test_verify_ok : rspOf (exec (.verify 3 0x00123 5 2) (block0 [])) = some { okR with ok := true, k := 2 } := by decide
theorem test_verify_mismatch :
    rspOf (exec (.verify 0xF 0xFFFFF 0xF 0xF) (block0 [])) = some { blankResponse fp0 with status := 2, k := 0xC } := by decide
/-- Section 2.4. -/
theorem test_recon : rspOf (exec (.recon 15 0xFFFFF) (block0 [])) = some { okR with val := 0x7FFFF8000 } := by decide
theorem test_recon_narrow :
    rspOf (exec (.recon 15 0xFFFFF) (block matrixTM true [])) = some { okR with val := 0xFFFF8000 } := by decide
theorem test_channels :
    rspOf (exec (.channels 0x300123526ABCDEAB51234533FFFFFFFC) (block0 [])) =
      some { okR with ok := true, code := ⟨0x918, 0x2AF3780, 0x2468A0, 0x7FFFF8000⟩ } := by decide
theorem test_channels_mismatch :
    rspOf (exec (.channels 0x300123526ABCDEAB51234433FFFFFFFC) (block0 [])) =
      some { blankResponse fp0 with status := 2 } := by decide
/-- Section 2.5. -/
theorem test_thrEnc :
    rspOf (exec (.thrEnc 123456789) (block0 [])) = some { okR with e := 15, m12 := 0xEB7, word := 0xFEB7 } := by decide
theorem test_thrEnc_edges :
    thrEncodeNat 4095 = (0, 0xFFF) ∧ thrEncodeNat 4096 = (1, 0x800) ∧ thrEncodeNat 0x7FFFFFF = (15, 0xFFF) ∧
    thrEncodeNat 0x8000000 = (7, 0xFFF) := by decide
theorem test_thrDec : rspOf (exec (.thrDec 0xFFFF) (block0 [])) = some { okR with val := 0x7FF800000 } := by decide
theorem test_thrDec_narrow :
    rspOf (exec (.thrDec 0xFFFF) (block matrixTM true [])) = some { okR with val := 0xFF800000 } := by decide
/-- Section 2.6. -/
theorem test_matmul :
    rspOf (exec (.matmul ⟨1, 1, 2, 5⟩) (block0 [])) =
      some { okR with X := fp1, Y := fp1, Z := Fp64.ofBits 0x4000000000000000, L := Fp64.ofBits 0x4014000000000000 } := by
  decide +kernel
theorem test_matmul_negative :
    rspOf (exec (.matmul ⟨3, 1, 1, 0⟩) (block matrixTM2 false [])) =
      some { okR with X := Fp64.ofBits 0xC008000000000000, Y := fp1, Z := fp1 } := by decide +kernel
/-- cx = cy = 0.25, lux = 5. -/
theorem test_color :
    rspOf (exec (.color ⟨1, 1, 2, 5⟩) (block0 [])) =
      some { okR with cx := Fp64.ofBits 0x3FD0000000000000, cy := Fp64.ofBits 0x3FD0000000000000,
                      lux := Fp64.ofBits 0x4014000000000000, valid := true } := by decide +kernel
theorem test_color_degenerate :
    rspOf (exec (.color ⟨2, 1, 1, 9⟩) (block matrixTM2 false [])) =
      some { blankResponse fp0 with status := 3 } := by decide +kernel
/-- R82's example, (0.382, 0.0858): n is 0.49999999999999994 and the result 9902.375. Section 2.7: (0.3320, 0.3) gives 5517. -/
theorem test_cct :
    cctRatio Fp.binary64 (Fp64.ofBits 0x3FD872B020C49BA6) (Fp64.ofBits 0x3FB5F6FD21FF2E49) = Fp64.ofBits 0x3FDFFFFFFFFFFFFF ∧
    cctOf (exec (.cct (Fp64.ofBits 0x3FD872B020C49BA6) (Fp64.ofBits 0x3FB5F6FD21FF2E49)) (block0 [])) =
      some (1, Fp64.ofBits 0x40C3573000000000) ∧
    cctOf (exec (.cct (Fp64.ofBits 0x3FD53F7CED916873) (Fp64.ofBits 0x3FD3333333333333)) (block0 [])) =
      some (1, Fp64.ofBits 0x40B58D0000000000) := by
  decide +kernel
/-- An infinite input, and an overflow passed through: 1e308 gives +infinity, -1e308 gives NaN. -/
theorem test_cct_not_finite :
    cctOf (exec (.cct (.inf false) (Fp64.ofBits 0x3FB999999999999A)) (block0 [])) = some (4, fp0) ∧
    cctOf (exec (.cct (Fp64.ofBits 0x7FE1CCF385EBC8A0) fp0) (block0 [])) = some (1, .inf false) ∧
    cctOf (exec (.cct (Fp64.ofBits 0xFFE1CCF385EBC8A0) fp0) (block0 [])) = some (1, .nan) := by decide +kernel
/-- Section 2.8. -/
theorem test_rsvd : rspOf (exec (.rsvd 3) (block0 [])) = some { blankResponse fp0 with status := 5 } := by decide

/-! ### One step of the host (spec file 95 section 3; R34, D28, R96, D1) -/

/-- P3 step 2: the host copies the word of the last response. -/
theorem test_step_copies :
    rspOf (step { block0 [.line 0x8 [.copy .word .word]] with rsp := { okR with word := 0xCABC } }) =
      some { okR with val := 0xABC00000 } := by decide
/-- A 16-byte buffer, byte 0 first (P1's record in channel 0). -/
theorem test_step_buffer :
    rspOf (step (block0 [.line 0x6 [.buffer ([0x30, 0x01, 0x23, 0x52] ++ List.replicate 12 0)]])) =
      some { okR with ok := true, code := ⟨0x918, 0, 0, 0⟩ } := by decide
/-- P4 step 4. -/
theorem test_step_reset :
    rspOf (step { block0 [.reset] with rsp := { blankResponse fp0 with status := 5 } }) = some (blankResponse fp0) := by decide
theorem test_step_refuses :
    whyOf (step (block0 [.line 0x6 [.buffer (List.replicate 17 0)]])) = some (.frameSize 17) ∧
    whyOf (step (block0 [.line 0x7 [.num .v 0x100000000]])) = some (.operandOutOfRange .v 0x100000000) ∧
    whyOf (step (block0 [.overlapRequest (blankRequest 0) (blankRequest 0)])) = some .overlappingRequests ∧
    whyOf (step (block0 [.overlapReset (blankRequest 0)])) = some .resetDuringRequest := by decide

/-! ### States and operands that meet the hypotheses of the obligations -/

def aRequest : Request Fp64 := { blankRequest 0x4 with e := 3, m := 0x00123, c := 5, k := 2, word := 0xFFFF }

/-- EveryOpNamesExactlyOneRow, DecodedInstructionIsTheCoveringRow. -/
theorem test_witness_row : ∃ row ∈ opTable, row.covers aRequest.op = true :=
  ⟨⟨"VERIFY", 0x4, 0xF⟩, by simp [opTable], by decide⟩

/-- DecodeInvertsEncode: a request that agrees with the encoding where the instruction reads, and differs elsewhere. -/
theorem test_witness_agrees :
    aRequest.op = (encode (.verify 3 0x00123 5 2)).op ∧
    (∀ f ∈ (Instr.verify 3 0x00123 5 2).operands, aRequest.agreesAt (encode (.verify 3 0x00123 5 2)) f = true) ∧
    aRequest ≠ encode (.verify 3 0x00123 5 2) := by decide

/-- StepRunsTheDecodedInstruction, StepLatchesExecOfTheRequest, RunObservesExecOfEachRequest. -/
theorem test_witness_requests :
    (block0 [.request aRequest, .request (blankRequest 0xF)]).host =
      [aRequest, blankRequest 0xF].map HostAction.request := rfl

/-- StepRunsTheAssembledLine: the largest number each of two fields holds, and a copied field. -/
theorem test_witness_line :
    applySettings okR (blankRequest 0x0) [.num .e 0xF, .num .m12 0xFFF, .copy .k .status] =
      .ok { blankRequest 0x0 with e := 0xF, m12 := 0xFFF, k := 1 } := by rfl

/-- ResponseDependsOnRequestAndParametersOnly: two states built alike that differ. -/
theorem test_witness_same_build :
    (block0 []).build = { block0 [.reset] with rsp := okR }.build ∧ block0 [] ≠ { block0 [.reset] with rsp := okR } := by decide

/-- StepKeepsLatchLegal, StepNeverChangesParameters: a legal latch with a failed VERIFY in it, and a step from it. -/
def failedVerify : State :=
  { block0 [.request aRequest] with rsp := { blankResponse fp0 with status := 2, k := 0xC } }

theorem test_witness_legal : LegalLatch failedVerify := by
  constructor <;> decide

theorem test_witness_legal_step :
    step failedVerify = .next { block0 [] with rsp := { okR with ok := true, k := 2 } } := by rfl

/-- ResetEventBlanksTheLatch, ResetValuesOfTheLatch, LatchHoldsBetweenRequests. -/
theorem test_witness_reset :
    { failedVerify with host := [.reset, .readRsp] }.host = .reset :: [.readRsp] ∧
    (block0 [.overlapReset aRequest]).host = .overlapReset aRequest :: [] := ⟨rfl, rfl⟩
theorem test_witness_idle : (block0 []).host = [] ∧ (block0 [.readRsp]).host = .readRsp :: [] := ⟨rfl, rfl⟩

/-- LatchHoldsBetweenRequests, its third clause: a status OK goes on with all three actions, another one with the third alone. -/
def tested (status : StatusCode) : State :=
  { block0 [.skipUnlessOk 2, .request aRequest, .reset, .readRsp] with rsp := { okR with status := status } }
theorem test_witness_skip :
    (tested 1).rsp.status = 1 ∧ (tested 3).rsp.status ≠ 1 ∧
    step (tested 1) = .next { tested 1 with host := [.request aRequest, .reset, .readRsp] } ∧
    step (tested 3) = .next { tested 3 with host := [.readRsp] } := ⟨by decide, by decide, by rfl, by rfl⟩

/-- NoFaultAndNoRequestRefused, its last clause. -/
theorem test_witness_overlap :
    (block0 [.overlapRequest aRequest aRequest, .reset]).host = .overlapRequest aRequest aRequest :: [.reset] := rfl

/-- UnproducedFieldsAreWrittenZero: PACK writes no `val`. -/
theorem test_witness_unproduced :
    exec (.pack 1 2) (block0 []) = .next { block0 [] with rsp := { okR with word := 0x1002 } } ∧
    RspField.int .val ∉ (Instr.pack 1 2).results ∧ RspField.int .val ≠ .int .status := ⟨by rfl, by decide, by decide⟩

/-- NoFaultAndNoRequestRefused, WrongSizeBufferIsRefused: buffers of 15 and 17 bytes and of none, first in the line, and a later one
in a line of another code. -/
theorem test_witness_buffer :
    [0, 15, 17].map (fun n => whyOf (step (block0 [.line 0x6 [.buffer (List.replicate n 0)]]))) =
      [some (.frameSize 0), some (.frameSize 15), some (.frameSize 17)] ∧
    applySettings okR (blankRequest 0x7) [.num .v 0xFFFFFFFF] = .ok { blankRequest 0x7 with v := 0xFFFFFFFF } ∧
    whyOf (step { block0 [.line 0x7 ([.num .v 0xFFFFFFFF] ++ .buffer (List.replicate 15 0) :: [])] with rsp := okR }) =
      some (.frameSize 15) := ⟨by decide, by rfl, by decide⟩

/-- OutOfRangeOperandIsRefused: the least number that does not fit, first in the line and after a setting that fits, written out
(PACK e=7, m12=0x1000; CRC4 e=3, m=0x100000) and copied. -/
theorem test_witness_out_of_range :
    2 ^ IntOperand.e.width ≤ 16 ∧ 2 ^ IntOperand.m12.width ≤ 0x1000 ∧
    2 ^ IntOperand.e.width ≤ { okR with word := 16 }.int .word ∧
    applySettings okR (blankRequest 0x0) [.num .e 7] = .ok { blankRequest 0x0 with e := 7 } ∧
    whyOf (step (block0 [.line 0x0 ([.num .e 7] ++ .num .m12 0x1000 :: [])])) = some (.operandOutOfRange .m12 0x1000) ∧
    whyOf (step (block0 [.line 0x3 ([.num .e 3] ++ .num .m 0x100000 :: [])])) = some (.operandOutOfRange .m 0x100000) ∧
    whyOf (step { block0 [.line 0x5 ([.num .m 1] ++ .copy .e .word :: [])] with rsp := { okR with word := 16 } }) =
      some (.operandOutOfRange .e 16) :=
  ⟨by decide, by decide, by decide, by rfl, by decide, by decide, by decide⟩

/-- WellFormedActionsComplete: a line that copies, and the widest copy that fits. -/
theorem test_witness_wellFormed :
    HostAction.wellFormed (.line 0xA [.num .ch0 0x7FFFFFFFF, .copy .ch1 .val]) = true ∧
    copiesFit { okR with val := 0x7FFFFFFFF } [.num .ch0 0x7FFFFFFFF, .copy .ch1 .val] := by
  refine ⟨by decide, fun f src h => ?_⟩
  simp only [List.mem_cons, List.not_mem_nil, or_false, reduceCtorEq, false_or, Setting.copy.injEq] at h
  obtain ⟨rfl, rfl⟩ := h
  decide

/-- The result statements: a request of each code, and of the last reserved one. -/
theorem test_witness_ops :
    ∀ op : BitVec 4, ∃ r : Request Fp64, r.op = op := fun op => ⟨blankRequest op, rfl⟩
theorem test_witness_reserved : (blankRequest 0xC).op.toNat ≥ 12 ∧ (blankRequest 0xF).op.toNat ≥ 12 := by decide

/-- VerifyResult, VerifyDetection: an equal code and a different one, and the highest data bits. -/
theorem test_witness_verify :
    crc4 3 0x00123 5 = 2 ∧ crc4 3 0x00123 5 ≠ 3 ∧
    crc4 (3 ^^^ 1#4 <<< 3) 0x00123 5 ≠ 2 ∧ crc4 3 (0x00123 ^^^ 1#20 <<< 19) 5 ≠ 2 ∧
    crc4 3 0x00123 (5 ^^^ 1#4 <<< 3) ≠ 2 := by decide

/-- FrameCarriesTheBuffer: the first and the last byte and channel. -/
def countingBuffer : List Byte := (List.range 16).map (BitVec.ofNat 8)
theorem test_witness_frame :
    countingBuffer.length = 16 ∧ frameByte (frameOfBytes countingBuffer) 0 = 0 ∧
    frameByte (frameOfBytes countingBuffer) 15 = 15 ∧ frameRecord (frameOfBytes countingBuffer) 3 = 0x0C0D0E0F := by decide

/-- ReconstructionIsExact: the least exponent at which the widths differ. -/
theorem test_witness_recon : recon true 13 0x80000 ≠ recon false 13 0x80000 := by decide

/-- ChannelsResult, ChannelFieldsOfTheFrame: all channels pass; channel 0 or channel 3 fails. -/
theorem test_witness_channels :
    (∀ i, i < 4 →
      crc4 (channel 0x300123526ABCDEAB51234533FFFFFFFC i).e (channel 0x300123526ABCDEAB51234533FFFFFFFC i).m
        (channel 0x300123526ABCDEAB51234533FFFFFFFC i).c = (channel 0x300123526ABCDEAB51234533FFFFFFFC i).k) ∧
    (channel 0x30012353000000000000000000000000 0).passes = false ∧
    (channel 0x300123526ABCDEAB51234533FFFFFFFF 3).passes = false := by decide

/-- ChannelsRejectsAFlippedNibbleBit: the first and the last bit of the nibbles. -/
theorem test_witness_flip :
    (rspOf (exec (.channels 0x300123526ABCDEAB51234533FFFFFFFC) (block0 []))).map (·.status) = some 1 ∧
    (rspOf (exec (.channels (0x300123526ABCDEAB51234533FFFFFFFC ^^^ 1#128 <<< 96)) (block0 []))).map (·.status) = some 2 ∧
    (rspOf (exec (.channels (0x300123526ABCDEAB51234533FFFFFFFC ^^^ 1#128 <<< 3)) (block0 []))).map (·.status) = some 2 := by
  decide

/-- ThresholdEncoderClosedForm, DecodingAnEncodedThreshold: the ends of the three ranges. -/
theorem test_witness_threshold :
    (0 : ThrValue).toNat ≤ 4095 ∧ (4095 : ThrValue).toNat ≤ 4095 ∧ 4096 ≤ (4096 : ThrValue).toNat ∧
    1 ≤ (1 : ThrValue).toNat ∧ (0x7FFFFFF : ThrValue).toNat < 2 ^ 27 ∧ 2 ^ 27 ≤ (0x8000000 : ThrValue).toNat ∧
    (thrDecode false (thrExponent 4097) (thrMantissa 4097)).toNat = 1048576 ∧ 4097 % 2 ^ (thrEncodeNat 4097).1 ≠ 0 ∧
    (thrDecode false (unpackExponent 0x7FFF) (unpackMantissa 0x7FFF)).toNat = (134184960 : ThrValue).toNat := by
  decide

/-- ColorResult: a sum above 0, a negative one, and a NaN. -/
theorem test_witness_color :
    (colorSum Fp.binary64 (matmul Fp.binary64 matrixTM ⟨1, 1, 2, 5⟩)).gt fp0 = true ∧
    (colorSum Fp.binary64 (matmul Fp.binary64 matrixTM2 ⟨3, 1, 1, 0⟩)).gt fp0 = false ∧
    (colorSum Fp.binary64 (matmul Fp.binary64 { matrixTM with c0 := ⟨.nan, fp0, fp0, fp0⟩ } ⟨1, 0, 0, 0⟩)).gt fp0 = false := by
  decide +kernel

/-- CctResult: a negative and a positive zero, an infinite input, the zero denominator, and a point that is computed. -/
theorem test_witness_cct :
    (Fp64.neg fp0).eq fp0 = true ∧ (Fp64.inf true).isFinite = false ∧
    ((Fp64.ofDec 1858 4).sub (Fp64.ofDec 1858 4)).eq fp0 = true ∧
    (fp1.eq fp0 = false ∧ fp1.isFinite = true ∧ fp0.isFinite = true ∧ ((Fp64.ofDec 1858 4).sub fp0).eq fp0 = false) := by
  decide +kernel

/-- CctFiniteOnChromaticities: both ends of the range of cx, beside the zero denominator. -/
theorem test_witness_cct_finite :
    fp1.le (Fp64.ofNat 1) = true ∧ (Fp64.ofNat 1).neg.le fp1 = true ∧
    fpM1.le (Fp64.ofNat 1) = true ∧ (Fp64.ofNat 1).neg.le fpM1 = true ∧
    ((rspOf (exec (.cct fpM1 (Fp64.ofBits 0x3FC7C84B5DCC63F0)) (block0 []))).map (·.status) = some 1) := by decide +kernel

/-- BinaryOperationsRoundOnce: two finite data, the second not zero; and two zeros of opposite sign. -/
theorem test_witness_round :
    fp1.value? = some 1 ∧ fpM1.value? = some (-1) ∧ (-1 : Rat) ≠ 0 ∧
    fp0.value? = some 0 ∧ (Fp64.neg fp0).value? = some 0 ∧ (Fp64.neg fp0).isNegative = true ∧ fp0.isNegative = false := by
  decide +kernel

/-- BinaryOperationsRoundOnce at a tie (IEEE 754): 1 + 2^-53 goes down to 1 and (1 + 2^-52) + 2^-53 up to 1 + 2^-51, both even. -/
theorem test_witness_round_tie :
    (Fp64.finite false 970 0).value? = some (1 / 2 ^ 53) ∧ (Fp64.finite false 1023 1).value? = some (1 + 1 / 2 ^ 52) ∧
    fp1.add (.finite false 970 0) = fp1 ∧
    (Fp64.finite false 1023 1).add (.finite false 970 0) = .finite false 1023 2 := by decide +kernel

/-- BinaryOperationsRoundOnce at the overflow bound (IEEE 754): the largest finite datum plus 2^970 is at the bound and gives an
infinity; plus the largest datum below 2^970 it stays. -/
theorem test_witness_round_overflow :
    (Fp64.finite false 2046 (BitVec.allOnes 52)).value? = some (overflowBound - 2 ^ 970) ∧
    (Fp64.finite false 1993 0).value? = some (2 ^ 970) ∧
    (Fp64.finite false 2046 (BitVec.allOnes 52)).add (.finite false 1993 0) = .inf false ∧
    (Fp64.finite true 2046 (BitVec.allOnes 52)).sub (.finite false 1993 0) = .inf true ∧
    (Fp64.finite false 2046 (BitVec.allOnes 52)).add (.finite false 1992 (BitVec.allOnes 52)) =
      .finite false 2046 (BitVec.allOnes 52) := by decide +kernel

/-- ReferenceTransformIsLinear: codes and their largest multiple. -/
theorem test_witness_linear :
    (0x7FFFFFFFE : Code).toNat = 2 * (0x3FFFFFFFF : Code).toNat ∧ (0 : Code).toNat = 2 * (0 : Code).toNat := by decide

/-- ReferenceColor: the zero matrix is degenerate, a matrix that weights channel 0 is not. -/
theorem test_witness_reference_color :
    (let t := matmul (Fp.exact ℝ) ⟨⟨0, 0, 0, 0⟩, ⟨0, 0, 0, 0⟩, ⟨0, 0, 0, 0⟩, ⟨0, 0, 0, 0⟩⟩ ⟨1, 1, 2, 5⟩
     t.x + t.y + t.z ≤ 0) ∧
    (let t := matmul (Fp.exact ℝ) ⟨⟨1, 0, 0, 0⟩, ⟨0, 0, 0, 0⟩, ⟨0, 0, 0, 0⟩, ⟨0, 0, 0, 0⟩⟩ ⟨1, 1, 2, 5⟩
     0 < t.x + t.y + t.z) := by
  constructor <;> simp [matmul, weightedSum, codeValues, Fp.exact]

/-- ReferenceCct: the constant itself, and the point (1, 0). -/
theorem test_witness_reference_cct :
    ((0 : ℝ) = 0 ∧ (0 : ℝ) = 0 ∨ (0 : ℝ) = 0.1858) ∧ ¬((1 : ℝ) = 0 ∧ (0 : ℝ) = 0) ∧ (0 : ℝ) ≠ 0.1858 := by norm_num

/-- The macros of R53: program P1 (CHECK), P3 (THR_RT), P2 (LIGHT), with something left to do after each. -/
theorem test_witness_macros :
    (block0 (macroCheck 0x30012352 ++ [.readRsp])).host = macroCheck 0x30012352 ++ [.readRsp] ∧
    (block0 (macroThrRt 0x00ABCDEF ++ [.readRsp])).host = macroThrRt 0x00ABCDEF ++ [.readRsp] ∧
    (block0 (macroLight 0x00000110000001221000013200000541 ++ [.readRsp])).host =
      macroLight 0x00000110000001221000013200000541 ++ [.readRsp] := ⟨rfl, rfl, rfl⟩

end Sys2Proof.Tests
end

section
/-! The rounding of Machine/Float.lean is correct in the sense of Safety.lean, and so is each operation on finite data (O50). -/

namespace Sys2Proof

open Sys2Proof.Safety

/-! ### The sign as a factor -/

/-- The sign bit as the factor it stands for. -/
def signFactor (neg : Bool) : Int := if neg then -1 else 1

@[simp] theorem signFactor_false : signFactor false = 1 := rfl
@[simp] theorem signFactor_true : signFactor true = -1 := rfl

theorem signFactor_ne_zero (neg : Bool) : signFactor neg ≠ 0 := by
  cases neg <;> decide

theorem signFactor_xor (a b : Bool) : signFactor (a ^^ b) = signFactor a * signFactor b := by
  cases a <;> cases b <;> rfl

theorem signFactor_mul_self (neg : Bool) : signFactor neg * signFactor neg = 1 := by
  cases neg <;> rfl

theorem signFactor_decide_mul_natAbs (k : Int) : signFactor (decide (k < 0)) * k.natAbs = k := by
  rcases lt_or_ge k 0 with h | h
  · simp [h, abs_of_neg h]
  · simp [h.not_gt, abs_of_nonneg h]

@[simp] theorem scaled_false (e : Fin 2047) (f : BitVec 52) : Fp64.scaled false e f = Fp64.magnitude e f := rfl

theorem scaled_eq_signFactor_mul (neg : Bool) (e : Fin 2047) (f : BitVec 52) :
    Fp64.scaled neg e f = signFactor neg * Fp64.magnitude e f := by
  cases neg <;> simp [Fp64.scaled]

theorem signFactor_mul_scaled (s t : Bool) (e : Fin 2047) (f : BitVec 52) :
    signFactor s * Fp64.scaled t e f = Fp64.scaled (s ^^ t) e f := by
  rw [scaled_eq_signFactor_mul, scaled_eq_signFactor_mul, signFactor_xor, mul_assoc]

/-! ### The overflow bound and the last place of a rounding -/

/-- An even integer is reached from half a place below it, since the tie goes up to it. -/
theorem le_nearestEven_iff_of_even {n d k : Nat} (hd : 0 < d) (hk : k % 2 = 0) :
    k ≤ nearestEven n d ↔ 2 * (d * k) ≤ 2 * n + d := by
  constructor
  · intro h
    have hmul : d * k ≤ d * nearestEven n d := Nat.mul_le_mul_left d h
    have herr := (nearestEven_error (n := n) hd).2
    omega
  · intro h
    have hn := Nat.div_add_mod n d
    have hr := Nat.mod_lt n hd
    have hq : k ≤ n / d + 1 := by
      by_contra hlt
      have hmul : d * (n / d + 2) ≤ d * k := Nat.mul_le_mul_left d (by omega)
      rw [mul_add] at hmul
      omega
    rcases Nat.lt_or_ge (n / d) k with hlt | hge
    · have hk1 : k = n / d + 1 := by omega
      rw [hk1, mul_add] at h
      unfold nearestEven
      dsimp only
      split_ifs <;> omega
    · exact le_nearestEven hd ((Nat.mul_le_mul_left d hge).trans (Nat.mul_div_le n d))

/-- The overflow bound in least units: half a place below 2^2098. -/
def overflowUnits : Nat := (2 ^ 54 - 1) * 2 ^ 2044

theorem overflowUnits_pos : 0 < overflowUnits := by
  rw [overflowUnits]
  exact Nat.mul_pos (by decide) (pow_pos two_pos _)

/-- A rounding aims at 2^2098 or more exactly from half a place below it: the place is 2^2045 there. -/
theorem rounded_overflows_iff {n d : Nat} (hd : 0 < d) :
    2 ^ 2098 ≤ nearestEven n (d * 2 ^ Fp64.shiftOf n d) * 2 ^ Fp64.shiftOf n d ↔ d * overflowUnits ≤ n := by
  obtain ⟨hlo, hhi⟩ := shiftOf_bounds (n := n) hd
  set shift := Fp64.shiftOf n d
  have hd2 : 0 < d * 2 ^ shift := Nat.mul_pos hd (Nat.two_pow_pos _)
  have hsig : nearestEven n (d * 2 ^ shift) ≤ 2 ^ 53 := nearestEven_le hd2 hhi.le
  have hbelow : shift < 2045 → 2 ^ shift ≤ 2 ^ 2044 := fun h => pow_le_pow_right₀ one_le_two (Nat.le_of_lt_succ h)
  have hat : shift = 2045 → 2 ^ shift = 2 * 2 ^ 2044 := fun h => by rw [h, ← pow_succ']
  have habove : 2045 < shift → 2 ^ 2 * 2 ^ 2044 ≤ 2 ^ shift := fun h => by
    rw [← pow_add]
    exact pow_le_pow_right₀ one_le_two h
  have hhalf : 0 < 2 ^ 2044 := pow_pos two_pos _
  rw [overflowUnits, show 2 ^ 2098 = 2 ^ 54 * 2 ^ 2044 by rw [← pow_add]]
  generalize 2 ^ 2044 = half at *
  generalize 2 ^ shift = place at *
  have hdhalf : 0 < d * half := Nat.mul_pos hd hhalf
  rw [show d * ((2 ^ 54 - 1) * half) = (2 ^ 54 - 1) * (d * half) by ring]
  rcases lt_trichotomy shift 2045 with hs | hs | hs
  · have hplace := hbelow hs
    refine iff_of_false (fun h => ?_) (fun h => ?_)
    · have := Nat.mul_le_mul hsig hplace
      omega
    · have := Nat.mul_le_mul_left d hplace
      omega
  · have hplace := hat hs
    subst hplace
    rw [show 2 ^ 54 * half = 2 ^ 53 * (2 * half) by ring, Nat.mul_le_mul_right_iff (by omega),
      le_nearestEven_iff_of_even hd2 (by decide), show d * (2 * half) = 2 * (d * half) by ring]
    omega
  · have hplace := habove hs
    have hn := hlo.resolve_left (by omega)
    refine iff_of_true ?_ ?_
    · have := Nat.mul_le_mul (le_nearestEven hd2 hn) hplace
      omega
    · have := Nat.mul_le_mul_left d hplace
      rw [show d * (2 ^ 2 * half) = 4 * (d * half) by ring] at this
      omega

/-- The last bit of a rounded fraction is the parity of the significand. -/
theorem roundScaled_frac_even {neg s : Bool} {n d : Nat} {e : Fin 2047} {f : BitVec 52}
    (h : Fp64.roundScaled neg n d = .finite s e f)
    (heven : nearestEven n (d * 2 ^ Fp64.shiftOf n d) % 2 = 0) : f.getLsbD 0 = false := by
  rw [roundScaled_eq_roundPositive, Fp64.roundPositive] at h
  simp only [evalNat_eq, evalBool_eq, pow2_eq] at h
  split at h
  · obtain ⟨-, -, rfl⟩ := Fp64.finite.inj h
    have hpacked : (Fp64.shiftOf n d * 2 ^ 52 + nearestEven n (d * 2 ^ Fp64.shiftOf n d)) % 2 = 0 := by omega
    rw [BitVec.getLsbD_ofNat, Nat.testBit_zero, hpacked]
    rfl
  · cases h

/-! ### A rounded quotient is correctly rounded -/

/-- How many of binary64's least units, 2^-1074, make one; irreducible, so that no unifier computes with it. -/
@[irreducible] def unitsPerOne : Nat := pow2 1074

theorem pow2_1074_eq : pow2 1074 = unitsPerOne := by rw [unitsPerOne]

theorem two_pow_1074_eq : (2 : Rat) ^ 1074 = unitsPerOne := by
  rw [← pow2_1074_eq, pow2_eq, Nat.cast_pow, Nat.cast_ofNat]

theorem unitsPerOne_pos : 0 < unitsPerOne := by
  rw [← pow2_1074_eq, pow2_eq]
  exact pow_pos two_pos _

theorem unitsPerOne_cast_pos : (0 : Rat) < unitsPerOne := Nat.cast_pos.mpr unitsPerOne_pos

theorem overflowBound_mul_unitsPerOne : overflowBound * unitsPerOne = overflowUnits := by
  rw [overflowBound, ← two_pow_1074_eq, overflowUnits, mul_assoc, ← pow_add, Nat.cast_mul, Nat.cast_pow]
  norm_num

/-- The finite data are those that stand for a number, a whole number of least units. -/
theorem value?_eq_some_iff {a : Fp64} {x : Rat} :
    a.value? = some x ↔ ∃ s e f, a = .finite s e f ∧ x * unitsPerOne = Fp64.scaled s e f := by
  cases a with
  | nan => simp [Fp64.value?]
  | inf => simp [Fp64.value?]
  | finite s e f =>
    rw [Fp64.value?, Option.some_inj, two_pow_1074_eq, div_eq_iff unitsPerOne_cast_pos.ne']
    simp [eq_comm]

section Quotient
variable {neg : Bool} {n d : Nat} {q : Rat}

/-- The distance of a number from ± n / d least units, freed of the denominator and of the sign. -/
theorem abs_sub_mul_denominator (hq : q * (unitsPerOne * d) = signFactor neg * n) {v : Rat} {m : Int}
    (hv : v * unitsPerOne = m) :
    |v - q| * (unitsPerOne * d) = ((|(d : Int) * (signFactor neg * m) - n| : Int) : Rat) := by
  have hpos : (0 : Rat) ≤ unitsPerOne * d := mul_nonneg unitsPerOne_cast_pos.le d.cast_nonneg
  have hself : (signFactor neg : Rat) * signFactor neg = 1 := by exact_mod_cast signFactor_mul_self neg
  have hclear : (v - q) * (unitsPerOne * d) = signFactor neg * (d * (signFactor neg * m) - n) := by
    linear_combination d * hv - hq - d * m * hself
  calc |v - q| * (unitsPerOne * d) = |(v - q) * (unitsPerOne * d)| := by rw [abs_mul, abs_of_nonneg hpos]
    _ = |(d : Rat) * (signFactor neg * m) - n| := by rw [hclear, abs_mul]; cases neg <;> simp
    _ = _ := by push_cast; rfl

/-- The quotient is at or above the overflow bound exactly when its integers are. -/
theorem overflowBound_le_abs_iff (hd : 0 < d) (hq : q * (unitsPerOne * d) = signFactor neg * n) :
    overflowBound ≤ |q| ↔ d * overflowUnits ≤ n := by
  have hpos : (0 : Rat) < unitsPerOne * d := mul_pos unitsPerOne_cast_pos (Nat.cast_pos.mpr hd)
  have habs : |q| * (unitsPerOne * d) = n := by
    simpa using abs_sub_mul_denominator hq (v := 0) (m := 0) (by simp)
  have hbound : overflowBound * (unitsPerOne * d) = ((d * overflowUnits : Nat) : Rat) := by
    rw [Nat.cast_mul, ← overflowBound_mul_unitsPerOne]
    ring
  rw [← mul_le_mul_iff_left₀ hpos, habs, hbound, Nat.cast_le]

/-- The number a rounding aims at is nearest to the quotient among the finite data; when another is as near, its significand
is even. -/
theorem rounded_value_nearest (hd : 0 < d) (hq : q * (unitsPerOne * d) = signFactor neg * n)
    {t : Bool} {e g : Fin 2047} {f k : BitVec 52} {v u : Rat}
    (hm : Fp64.magnitude e f = nearestEven n (d * 2 ^ Fp64.shiftOf n d) * 2 ^ Fp64.shiftOf n d)
    (hv : v * unitsPerOne = Fp64.scaled neg e f) (hu : u * unitsPerOne = Fp64.scaled t g k) :
    |v - q| ≤ |u - q| ∧ (|v - q| = |u - q| → u ≠ v → nearestEven n (d * 2 ^ Fp64.shiftOf n d) % 2 = 0) := by
  have hpos : (0 : Rat) < unitsPerOne * d := mul_pos unitsPerOne_cast_pos (Nat.cast_pos.mpr hd)
  have hmag : (Fp64.magnitude e f : Int) = nearestEven n (d * 2 ^ Fp64.shiftOf n d) * 2 ^ Fp64.shiftOf n d := by
    rw [hm]; push_cast; rfl
  obtain ⟨hnear, htie⟩ := rounded_nearest (n := n) hd g k (neg ^^ t)
  rw [← hmag] at hnear htie
  have hdistv := abs_sub_mul_denominator hq hv
  have hdistu := abs_sub_mul_denominator hq hu
  rw [signFactor_mul_scaled, Bool.xor_self, scaled_false] at hdistv
  rw [signFactor_mul_scaled] at hdistu
  refine ⟨?_, fun heq hne => htie ?_ fun hsame => hne ?_⟩
  · rwa [← mul_le_mul_iff_left₀ hpos, hdistv, hdistu, Int.cast_le]
  · rwa [heq, hdistu, Int.cast_inj, eq_comm] at hdistv
  · have hscaled : Fp64.scaled t g k = Fp64.scaled neg e f := by
      refine mul_left_cancel₀ (signFactor_ne_zero neg) ?_
      rw [signFactor_mul_scaled, signFactor_mul_scaled, hsame, Bool.xor_self, scaled_false]
    rw [← mul_right_cancel_iff_of_pos unitsPerOne_cast_pos, hu, hv, hscaled]

/-- The datum Machine/Float.lean rounds ± n / d least units to is correctly rounded. -/
theorem roundScaled_correctlyRounded (hd : 0 < d) (hq : q * (unitsPerOne * d) = signFactor neg * n) :
    CorrectlyRounded q (Fp64.roundScaled neg n d) := by
  have hbound := overflowBound_le_abs_iff hd hq
  have hover := rounded_overflows_iff (n := n) hd
  obtain ⟨shift, sig, rfl, rfl, -, -, ⟨e, f, hr, hm⟩ | ⟨hr, hbig⟩⟩ := roundScaled_cases neg (n := n) hd
  · have heven := roundScaled_frac_even hr
    rw [hr]
    refine ⟨?_, fun v hv w u hu => ?_⟩
    · rw [← not_le, hbound, ← hover, ← hm, not_le]
      exact magnitude_lt e f
    · obtain ⟨_, _, _, hself, hv⟩ := value?_eq_some_iff.mp hv
      obtain ⟨rfl, rfl, rfl⟩ := Fp64.finite.inj hself
      obtain ⟨t, g, k, rfl, hw⟩ := value?_eq_some_iff.mp hu
      exact (rounded_value_nearest hd hq hm hv hw).imp_right fun htie heq hne => heven (htie heq hne)
  · have hle := hover.mp hbig
    have hn : 0 < n := (Nat.mul_pos hd overflowUnits_pos).trans_le hle
    have hpos : (0 : Rat) < unitsPerOne * d := mul_pos unitsPerOne_cast_pos (Nat.cast_pos.mpr hd)
    rw [hr]
    refine ⟨hbound.mpr hle, ?_⟩
    rw [← mul_lt_mul_iff_left₀ hpos, zero_mul, hq]
    cases neg <;> simp [hn]

end Quotient

/-! ### The operations on finite data -/

/-- Addition rounds the exact sum, and a zero sum is given the conjunction of the operands' signs. -/
theorem add_finite_eq (s t : Bool) (e g : Fin 2047) (f k : BitVec 52) :
    Fp64.add (.finite s e f) (.finite t g k) =
      Fp64.roundScaled
        (if Fp64.scaled s e f + Fp64.scaled t g k = 0 then s && t
          else decide (Fp64.scaled s e f + Fp64.scaled t g k < 0))
        (Fp64.scaled s e f + Fp64.scaled t g k).natAbs 1 := by
  dsimp only [Fp64.add]
  split
  · next h => rw [h]; rfl
  · rfl

section Operands
variable {a b : Fp64} {x y : Rat}

theorem value?_neg (hb : b.value? = some y) : b.neg.value? = some (-y) := by
  obtain ⟨t, g, k, rfl, hy⟩ := value?_eq_some_iff.mp hb
  refine value?_eq_some_iff.mpr ⟨!t, g, k, rfl, ?_⟩
  rw [neg_mul, hy]
  cases t <;> simp [Fp64.scaled]

theorem add_correctlyRounded (ha : a.value? = some x) (hb : b.value? = some y) :
    CorrectlyRounded (x + y) (a.add b) := by
  obtain ⟨s, e, f, rfl, hx⟩ := value?_eq_some_iff.mp ha
  obtain ⟨t, g, k, rfl, hy⟩ := value?_eq_some_iff.mp hb
  rw [add_finite_eq]
  refine roundScaled_correctlyRounded one_pos ?_
  rw [Nat.cast_one, mul_one, add_mul, hx, hy, ← Int.cast_add]
  split
  · next h => simp [h]
  · rw [← Int.cast_natCast, ← Int.cast_mul, signFactor_decide_mul_natAbs]

theorem isNegative_add (ha : a.value? = some x) (hb : b.value? = some y) :
    (a.add b).isNegative = true ↔ x + y < 0 ∨ (x + y = 0 ∧ a.isNegative = true ∧ b.isNegative = true) := by
  obtain ⟨s, e, f, rfl, hx⟩ := value?_eq_some_iff.mp ha
  obtain ⟨t, g, k, rfl, hy⟩ := value?_eq_some_iff.mp hb
  have hsum : (x + y) * unitsPerOne = (Fp64.scaled s e f + Fp64.scaled t g k : Int) := by
    rw [add_mul, hx, hy, Int.cast_add]
  have hneg : x + y < 0 ↔ Fp64.scaled s e f + Fp64.scaled t g k < 0 := by
    rw [← mul_lt_mul_iff_left₀ unitsPerOne_cast_pos, zero_mul, hsum, Int.cast_lt_zero]
  have hzero : x + y = 0 ↔ Fp64.scaled s e f + Fp64.scaled t g k = 0 := by
    rw [← mul_eq_zero_iff_right unitsPerOne_cast_pos.ne', hsum, Int.cast_eq_zero]
  rw [add_finite_eq, isNegative_roundScaled, hneg, hzero]
  split
  · next h => simp [h, Fp64.isNegative]
  · next h => simp [h]

theorem mul_correctlyRounded (ha : a.value? = some x) (hb : b.value? = some y) :
    CorrectlyRounded (x * y) (a.mul b) := by
  obtain ⟨s, e, f, rfl, hx⟩ := value?_eq_some_iff.mp ha
  obtain ⟨t, g, k, rfl, hy⟩ := value?_eq_some_iff.mp hb
  rw [Fp64.mul, pow2_1074_eq]
  refine roundScaled_correctlyRounded unitsPerOne_pos ?_
  calc x * y * (unitsPerOne * unitsPerOne) = (x * unitsPerOne) * (y * unitsPerOne) := by ring
    _ = _ := by
      rw [hx, hy, scaled_eq_signFactor_mul, scaled_eq_signFactor_mul, signFactor_xor]
      push_cast
      ring

/-- A product has the sign of the operands' signs, a zero product too. -/
theorem isNegative_mul (ha : a.value? = some x) (hb : b.value? = some y) :
    (a.mul b).isNegative = (a.isNegative ^^ b.isNegative) := by
  obtain ⟨s, e, f, rfl, -⟩ := value?_eq_some_iff.mp ha
  obtain ⟨t, g, k, rfl, -⟩ := value?_eq_some_iff.mp hb
  exact isNegative_roundScaled _ _ _

theorem magnitude_ne_zero_of_value_ne_zero {t : Bool} {g : Fin 2047} {k : BitVec 52}
    (hy : y * unitsPerOne = Fp64.scaled t g k) (h0 : y ≠ 0) : Fp64.magnitude g k ≠ 0 := by
  intro hm
  rw [scaled_eq_signFactor_mul, hm] at hy
  simp [unitsPerOne_cast_pos.ne', h0] at hy

theorem div_finite_eq (s t : Bool) (e g : Fin 2047) (f k : BitVec 52) (hg : Fp64.magnitude g k ≠ 0) :
    Fp64.div (.finite s e f) (.finite t g k) =
      Fp64.roundScaled (s ^^ t) (unitsPerOne * Fp64.magnitude e f) (Fp64.magnitude g k) := by
  rw [Fp64.div, if_neg hg, pow2_1074_eq]

theorem div_correctlyRounded (ha : a.value? = some x) (hb : b.value? = some y) (h0 : y ≠ 0) :
    CorrectlyRounded (x / y) (a.div b) := by
  obtain ⟨s, e, f, rfl, hx⟩ := value?_eq_some_iff.mp ha
  obtain ⟨t, g, k, rfl, hy⟩ := value?_eq_some_iff.mp hb
  have hg := magnitude_ne_zero_of_value_ne_zero hy h0
  rw [scaled_eq_signFactor_mul] at hx hy
  have hself : (signFactor t : Rat) * signFactor t = 1 := by exact_mod_cast signFactor_mul_self t
  have hmag : (Fp64.magnitude g k : Rat) = signFactor t * (y * unitsPerOne) := by
    rw [hy]; push_cast; linear_combination -(Fp64.magnitude g k : Rat) * hself
  have hq : x / y * (unitsPerOne * Fp64.magnitude g k) =
      signFactor (s ^^ t) * (unitsPerOne * Fp64.magnitude e f : Nat) := by
    calc x / y * (unitsPerOne * Fp64.magnitude g k)
        = signFactor t * (x * unitsPerOne) * unitsPerOne := by rw [hmag]; field_simp
      _ = _ := by rw [hx, signFactor_xor, Nat.cast_mul]; push_cast; ring
  rw [div_finite_eq s t e g f k hg]
  exact roundScaled_correctlyRounded (Nat.pos_of_ne_zero hg) hq

theorem isNegative_div (ha : a.value? = some x) (hb : b.value? = some y) (h0 : y ≠ 0) :
    (a.div b).isNegative = (a.isNegative ^^ b.isNegative) := by
  obtain ⟨s, e, f, rfl, -⟩ := value?_eq_some_iff.mp ha
  obtain ⟨t, g, k, rfl, hy⟩ := value?_eq_some_iff.mp hb
  rw [div_finite_eq s t e g f k (magnitude_ne_zero_of_value_ne_zero hy h0), isNegative_roundScaled]
  rfl

end Operands

/-- Settles O50: subtraction is addition of the negated datum, and each operation rounds its exact quotient of integers. -/
theorem binaryOperationsRoundOnce : Obligations.BinaryOperationsRoundOnce := by
  intro a b x y ha hb
  have hb' := value?_neg hb
  have hsign : b.neg.isNegative = !b.isNegative := isNegative_neg b (by rintro rfl; cases hb)
  refine ⟨add_correctlyRounded ha hb, ?_, mul_correctlyRounded ha hb, div_correctlyRounded ha hb,
    isNegative_add ha hb, ?_, isNegative_mul ha hb, isNegative_div ha hb⟩
  · rw [sub_eq_add_neg]
    exact add_correctlyRounded ha hb'
  · have h := isNegative_add ha hb'
    rwa [hsign, ← sub_eq_add_neg, Bool.not_eq_true'] at h

end Sys2Proof
end

section
/-! The state family of the obligations (spec file 10): a step on a request latches Exec of the request (O4, O6, O8, O10), nothing
changes the parameters (O13), what a response holds in each of its fields (O17, O21), the latch after reset (O12, O15), and the
legality of the latch as an invariant of every step (O11). -/

namespace Sys2Proof

open Sys2Proof.Machine Sys2Proof.Safety

/-! ### Exec of a request and exec of its instruction -/

/-- Each of the 16 codes is computed: only the fields that its row reads are left in both responses. -/
theorem respond_encode_decode (P : Params Fp64) (r : Request Fp64) : respond P (encode (decode r)) = respond P r := by
  obtain ⟨⟨op, hop⟩, e, m, m12, c, k, word, record, frame, v, ch, cx, cy⟩ := r
  interval_cases op <;> rfl

theorem respond_encode_rsvd (P : Params Fp64) (low : BitVec 2) : respond P (encode (.rsvd low)) = rsvdResponse P := by
  have hop : 0b11#2 ++ low = 0xC#4 ∨ 0b11#2 ++ low = 0xD#4 ∨ 0b11#2 ++ low = 0xE#4 ∨ 0b11#2 ++ low = 0xF#4 := by
    revert low
    decide
  rw [encode]
  rcases hop with h | h | h | h <;> rw [h] <;> rfl

theorem exec_eq_respond_encode (i : Instr) (s : State) :
    exec i s = .next { s with rsp := respond s.params (encode i) } := by
  cases i
  case rsvd low => rw [respond_encode_rsvd]; rfl
  all_goals rfl

/-- R22 and R23 agree: executing the decoded request latches `Exec` of the request. -/
theorem exec_decode (r : Request Fp64) (s : State) : exec (decode r) s = .next { s with rsp := respond s.params r } := by
  rw [exec_eq_respond_encode, respond_encode_decode]

theorem params_eq_of_build_eq {s s' : State} (h : s.build = s'.build) : s.params = s'.params := by
  rw [State.params, State.params, h]

/-- Settles O4: the encoding of the decoded request has the same response, code by code. -/
theorem unreadFieldsHaveNoEffect : Obligations.UnreadFieldsHaveNoEffect :=
  respond_encode_decode

/-- Settles O6: `issue` is exec of the decoded request. -/
theorem stepRunsTheDecodedInstruction : Obligations.StepRunsTheDecodedInstruction :=
  fun _ _ _ h => step_request h

/-- Settles O8: the step runs the decoded instruction, which latches `Exec` of the request. -/
theorem stepLatchesExecOfTheRequest : Obligations.StepLatchesExecOfTheRequest := by
  intro s r rest h
  rw [stepRunsTheDecodedInstruction s r rest h, exec_decode, params_with_host]

/-- Settles O10: the response is `Exec` of the instruction's own request, which takes the parameters and not the state. -/
theorem responseDependsOnRequestAndParametersOnly : Obligations.ResponseDependsOnRequestAndParametersOnly := by
  intro i s s' h
  refine ⟨respond s.params (encode i), exec_eq_respond_encode i s, ?_⟩
  rw [params_eq_of_build_eq h]
  exact exec_eq_respond_encode i s'

/-- Settles O13: of all that a step can do, only exec is more than a literal update, and its frame holds `build`. -/
theorem stepNeverChangesParameters : Obligations.StepNeverChangesParameters := by
  intro s t h
  rcases step_next_cases h with ⟨-, rfl⟩ | ⟨a, rest, -, ⟨i, hi⟩ | ⟨n, -, rfl⟩ | ⟨-, rfl⟩ | ⟨-, rfl⟩⟩
  · rfl
  · exact (exec_next_frame hi).1
  · split <;> rfl
  · rfl
  · rfl

/-! ### The reset event -/

theorem step_reset {s : State} {rest : List HostAction} (h : s.host = .reset :: rest) :
    step s = .next { s with rsp := State.reset.rsp, host := rest } := by
  rw [step, h]
  rfl

/-- Settles O15: every reset event writes the latch of the reset state. -/
theorem resetValuesOfTheLatch : Obligations.ResetValuesOfTheLatch :=
  ⟨rfl, fun _ _ h => ⟨_, step_reset h, rfl, rfl⟩⟩

/-! ### The responses that have more than one case -/

section ResponseCases
variable {α : Type} (P : Params α)

theorem verifyResponse_cases (e : Exponent) (m : Mantissa) (c k : Nibble) :
    verifyResponse P e m c k = { okResponse P with k := crc4 e m c, ok := true } ∨
    verifyResponse P e m c k = { errorResponse P statusIntegrityMismatch with k := crc4 e m c } := by
  unfold verifyResponse
  cases crc4 e m c == k
  · exact .inr rfl
  · exact .inl rfl

theorem channelsResponse_cases (frame : Frame) :
    channelsResponse P frame =
      { okResponse P with
        ok := true,
        code := ⟨channelCode P.narrow32 frame 0, channelCode P.narrow32 frame 1,
                 channelCode P.narrow32 frame 2, channelCode P.narrow32 frame 3⟩ } ∨
    channelsResponse P frame = errorResponse P statusIntegrityMismatch :=
  ite_eq_or_eq ..

theorem colorResponse_cases (ch : Quad Code) :
    (∃ x y l, colorResponse P ch = { okResponse P with cx := x, cy := y, lux := l, valid := true }) ∨
    colorResponse P ch = errorResponse P statusDegenerateSum :=
  (ite_eq_or_eq ..).imp_left fun h => ⟨_, _, _, h⟩

theorem cctResponse_cases (cx cy : α) :
    (∃ v, cctResponse P cx cy = { okResponse P with cct := v }) ∨
    cctResponse P cx cy = errorResponse P statusUndefChroma := by
  unfold cctResponse
  split
  · exact .inr rfl
  split
  · exact .inr rfl
  split
  · exact .inr rfl
  · exact .inl ⟨_, rfl⟩

end ResponseCases

/-- Settles O21: in each case of the response the 1-bit field and the status are both written out. -/
theorem okAndValidRepeatTheStatus : Obligations.OkAndValidRepeatTheStatus := by
  refine fun s t => ⟨fun e m c k h => ?_, fun frame h => ?_, fun ch h => ?_⟩ <;> cases h
  · rcases verifyResponse_cases s.params e m c k with hr | hr <;> simp [hr, statusOk, statusIntegrityMismatch]
  · rcases channelsResponse_cases s.params frame with hr | hr <;> simp [hr, statusOk, statusIntegrityMismatch]
  · rcases colorResponse_cases s.params ch with ⟨x, y, l, hr⟩ | hr <;> simp [hr, statusOk, statusDegenerateSum]

/-! ### Fields that are no results -/

/-- Is this field the status, or one of the listed fields, or zero? The shape in which every field of a response is accounted for. -/
def ListedOrZero (fs : List RspField) (r : Response Fp64) (f : RspField) : Prop :=
  f ∈ fs ∨ f = .int .status ∨ r.isZeroAt Fp64.posZero f = true

@[simp] theorem listedOrZero_int {fs : List RspField} {r : Response Fp64} {f : IntResult} :
    ListedOrZero fs r (.int f) ↔ .int f ∈ fs ∨ f = .status ∨ r.int f = 0 := by
  simp [ListedOrZero, Response.isZeroAt]

@[simp] theorem listedOrZero_fp {fs : List RspField} {r : Response Fp64} {f : FpResult} :
    ListedOrZero fs r (.fp f) ↔ .fp f ∈ fs ∨ r.fp f = Fp64.posZero := by
  simp [ListedOrZero, Response.isZeroAt]

theorem isZeroAt_errorResponse (s : State) (c : StatusCode) (f : RspField) :
    f = .int .status ∨ (errorResponse s.params c).isZeroAt Fp64.posZero f = true := by
  rcases f with f | f
  · cases f
    case status => exact .inl rfl
    all_goals exact .inr rfl
  · cases f <;> exact .inr rfl

/-- Every field of every response is accounted for, instruction by instruction and field by field. -/
theorem exec_listedOrZero {i : Instr} {s t : State} (h : exec i s = .next t) (f : RspField) :
    ListedOrZero i.results t.rsp f := by
  cases i
  case pack | unpack | deframe | crc4 | verify | recon | thrEnc | thrDec | matmul =>
    cases h
    rcases f with f | f <;> cases f <;>
      simp [Instr.results, Response.int, Response.fp, packResponse, unpackResponse, deframeResponse, crc4Response,
        verifyResponse, reconResponse, thrEncResponse, thrDecResponse, matmulResponse]
  case channels frame =>
    cases h
    rcases channelsResponse_cases s.params frame with hr | hr <;> rw [hr]
    · rcases f with f | f <;> cases f <;> simp [Instr.results, Response.int, Response.fp]
    · exact .inr (isZeroAt_errorResponse ..)
  case color ch =>
    cases h
    rcases colorResponse_cases s.params ch with ⟨x, y, l, hr⟩ | hr <;> rw [hr]
    · rcases f with f | f <;> cases f <;> simp [Instr.results, Response.int, Response.fp]
    · exact .inr (isZeroAt_errorResponse ..)
  case cct cx cy =>
    cases h
    rcases cctResponse_cases s.params cx cy with ⟨v, hr⟩ | hr <;> rw [hr]
    · rcases f with f | f <;> cases f <;> simp [Instr.results, Response.int, Response.fp]
    · exact .inr (isZeroAt_errorResponse ..)
  case rsvd low =>
    cases h
    exact .inr (isZeroAt_errorResponse ..)

/-- Settles O17: a field that is neither listed nor the status is zero. -/
theorem unproducedFieldsAreWrittenZero : Obligations.UnproducedFieldsAreWrittenZero :=
  fun _ _ _ f h hf hs => ((exec_listedOrZero h f).resolve_left hf).resolve_left hs

/-! ### Bounds on codes and decoded thresholds -/

theorem toNat_setWidth_shiftLeft_le {w : Nat} (m : BitVec w) (k : Nat) :
    (m.setWidth 35 <<< k).toNat ≤ m.toNat * 2 ^ k := by
  rw [BitVec.toNat_shiftLeft, BitVec.toNat_setWidth, Nat.shiftLeft_eq]
  exact (Nat.mod_le _ _).trans (Nat.mul_le_mul_right _ (Nat.mod_le _ _))

theorem narrow_toNat_le {full : Code} (h : full.toNat ≤ maxCode) (narrow32 : Bool) :
    (narrow narrow32 full).toNat ≤ codeBound narrow32 := by
  cases narrow32 with
  | false => exact h
  | true =>
    rw [narrow_true_toNat]
    exact Nat.le_pred_of_lt (Nat.mod_lt _ (by decide))

theorem recon_toNat_le (narrow32 : Bool) (e : Exponent) (m : Mantissa) :
    (recon narrow32 e m).toNat ≤ codeBound narrow32 := by
  have he : e.toNat ≤ 15 := Nat.le_pred_of_lt e.isLt
  have hm : m.toNat ≤ 2 ^ 20 - 1 := Nat.le_pred_of_lt m.isLt
  refine narrow_toNat_le ?_ narrow32
  calc (m.setWidth 35 <<< e.toNat).toNat
      ≤ m.toNat * 2 ^ e.toNat := toNat_setWidth_shiftLeft_le m e.toNat
    _ ≤ maxCode := Nat.mul_le_mul hm (Nat.pow_le_pow_right (by decide) he)

theorem thrDecode_toNat_le (narrow32 : Bool) (e : Exponent) (m12 : ThrMantissa) :
    (thrDecode narrow32 e m12).toNat ≤ codeBound narrow32 := by
  have he : 8 + e.toNat ≤ 23 := Nat.add_le_add_left (Nat.le_pred_of_lt e.isLt) 8
  have hm : m12.toNat ≤ 2 ^ 12 - 1 := Nat.le_pred_of_lt m12.isLt
  refine narrow_toNat_le ?_ narrow32
  calc (m12.setWidth 35 <<< (8 + e.toNat)).toNat
      ≤ m12.toNat * 2 ^ (8 + e.toNat) := toNat_setWidth_shiftLeft_le m12 (8 + e.toNat)
    _ ≤ (2 ^ 12 - 1) * 2 ^ 23 := Nat.mul_le_mul hm (Nat.pow_le_pow_right (by decide) he)
    _ ≤ maxCode := by decide

/-! ### The latch stays legal -/

section Legal
variable {s t : State}

/-- Legality speaks of the latch and the parameters, not of what the host does next. -/
theorem legalLatch_congr (h : LegalLatch s) (hr : t.rsp = s.rsp) (hb : t.build = s.build) : LegalLatch t := by
  obtain ⟨rsp, build, host⟩ := t
  obtain rfl : rsp = s.rsp := hr
  obtain rfl : build = s.build := hb
  exact { h with }

/-- With status OK only the bounds are left to show. -/
theorem legalLatch_of_ok (hs : s.rsp.status = statusOk)
    (hval : s.rsp.val.toNat ≤ codeBound s.build.narrow32)
    (hc0 : s.rsp.code.c0.toNat ≤ codeBound s.build.narrow32)
    (hc1 : s.rsp.code.c1.toNat ≤ codeBound s.build.narrow32)
    (hc2 : s.rsp.code.c2.toNat ≤ codeBound s.build.narrow32)
    (hc3 : s.rsp.code.c3.toNat ≤ codeBound s.build.narrow32) : LegalLatch s where
  status_le := by rw [hs]; decide
  ok_status _ := hs
  valid_status _ := hs
  failed_blank h := absurd hs h
  failed_k h := absurd hs h
  val_le := hval
  code0_le := hc0
  code1_le := hc1
  code2_le := hc2
  code3_le := hc3

theorem legalLatch_of_ok_of_no_code (hs : s.rsp.status = statusOk)
    (hval : s.rsp.val.toNat ≤ codeBound s.build.narrow32) (hcode : s.rsp.code = ⟨0, 0, 0, 0⟩) : LegalLatch s := by
  apply legalLatch_of_ok hs hval <;> simp [hcode]

/-- A blank response with a status, and with a `k` only when codes differ, is legal. -/
theorem legalLatch_of_blank_with_k {c : StatusCode} {k : Nibble}
    (hr : s.rsp = { blankResponse Fp64.posZero with status := c, k := k }) (hc : c.toNat ≤ 5)
    (hk : k ≠ 0 → c = statusIntegrityMismatch) : LegalLatch s := by
  obtain ⟨rsp, build, host⟩ := s
  obtain rfl : rsp = _ := hr
  exact
    { status_le := hc
      ok_status := fun h => nomatch h
      valid_status := fun h => nomatch h
      failed_blank := fun _ => rfl
      failed_k := fun _ => hk
      val_le := Nat.zero_le _
      code0_le := Nat.zero_le _
      code1_le := Nat.zero_le _
      code2_le := Nat.zero_le _
      code3_le := Nat.zero_le _ }

theorem legalLatch_of_blank (c : StatusCode) (hr : s.rsp = { blankResponse Fp64.posZero with status := c })
    (hc : c.toNat ≤ 5) : LegalLatch s :=
  legalLatch_of_blank_with_k (k := 0) hr hc fun h => absurd rfl h

/-- Whatever the latch held, legal or not, an instruction leaves a legal one, since it writes all of it. -/
theorem legalLatch_of_exec {i : Instr} (h : exec i s = .next t) : LegalLatch t := by
  cases i
  case pack | unpack | deframe | crc4 | thrEnc | matmul =>
    cases h
    exact legalLatch_of_ok_of_no_code rfl (Nat.zero_le _) rfl
  case recon e m =>
    cases h
    exact legalLatch_of_ok_of_no_code rfl (recon_toNat_le ..) rfl
  case thrDec word =>
    cases h
    exact legalLatch_of_ok_of_no_code rfl (thrDecode_toNat_le ..) rfl
  case verify e m c k =>
    cases h
    rcases verifyResponse_cases s.params e m c k with hr | hr <;> rw [hr]
    · exact legalLatch_of_ok_of_no_code rfl (Nat.zero_le _) rfl
    · exact legalLatch_of_blank_with_k (c := statusIntegrityMismatch) rfl (by decide) fun _ => rfl
  case channels frame =>
    cases h
    rcases channelsResponse_cases s.params frame with hr | hr <;> rw [hr]
    · exact legalLatch_of_ok rfl (Nat.zero_le _) (recon_toNat_le ..) (recon_toNat_le ..) (recon_toNat_le ..)
        (recon_toNat_le ..)
    · exact legalLatch_of_blank statusIntegrityMismatch rfl (by decide)
  case color ch =>
    cases h
    rcases colorResponse_cases s.params ch with ⟨x, y, l, hr⟩ | hr <;> rw [hr]
    · exact legalLatch_of_ok_of_no_code rfl (Nat.zero_le _) rfl
    · exact legalLatch_of_blank statusDegenerateSum rfl (by decide)
  case cct cx cy =>
    cases h
    rcases cctResponse_cases s.params cx cy with ⟨v, hr⟩ | hr <;> rw [hr]
    · exact legalLatch_of_ok_of_no_code rfl (Nat.zero_le _) rfl
    · exact legalLatch_of_blank statusUndefChroma rfl (by decide)
  case rsvd low =>
    cases h
    exact legalLatch_of_blank statusIllegalOp rfl (by decide)

end Legal

/-- Settles O12: the latch after reset is blank, with status NONE. -/
theorem latchLegalAfterReset : Obligations.LatchLegalAfterReset :=
  legalLatch_of_blank statusNone rfl (by decide)

/-- Settles O11: an instruction leaves a legal latch, a reset a blank one, and every other action leaves latch and parameters. -/
theorem stepKeepsLatchLegal : Obligations.StepKeepsLatchLegal := by
  intro s t hs h
  rcases step_next_cases h with ⟨-, rfl⟩ | ⟨a, rest, -, ⟨i, hi⟩ | ⟨n, -, rfl⟩ | ⟨-, rfl⟩ | ⟨-, rfl⟩⟩
  · exact hs
  · exact legalLatch_of_exec hi
  · split <;> exact legalLatch_congr hs rfl rfl
  · exact legalLatch_of_blank statusNone rfl (by decide)
  · exact legalLatch_congr hs rfl rfl

end Sys2Proof
end

section
/-! The memory family of the obligations (spec file 20): the frame operand of a buffer by bytes and by records (O28), and the
refusal of a buffer of another size (O29). -/

namespace Sys2Proof

open Sys2Proof.Machine

/-! ### The bytes and records of a frame -/

/-- In the frame of up to 16 bytes the last byte is the lowest and each one before it stands a byte higher. By induction on the
list from its end, as the fold pushes its bytes. -/
theorem getElem?_eq_extractLsb'_frameOfBytes {bytes : List Byte} {k : Nat} (hlen : bytes.length ≤ 16)
    (hk : k < bytes.length) :
    bytes[k]? = some ((frameOfBytes bytes).extractLsb' (8 * (bytes.length - 1 - k)) 8) := by
  induction bytes using List.reverseRecOn with
  | nil => exact absurd hk (Nat.not_lt_zero k)
  | append_singleton earlier b ih =>
    rw [List.length_append, List.length_singleton] at hlen hk
    rw [frameOfBytes_append, List.length_append, List.length_singleton, Nat.add_sub_cancel]
    rcases Nat.lt_succ_iff_lt_or_eq.mp hk with hlt | rfl
    · have hplace : earlier.length - k = earlier.length - 1 - k + 1 := by omega
      rw [List.getElem?_append_left hlt, ih (by omega) hlt, hplace, push_byte_high _ _ _ (by omega)]
    · rw [List.getElem?_concat_length, Nat.sub_self, Nat.mul_zero, push_byte_low]

theorem getElem?_eq_frameByte {bytes : List Byte} {k : Nat} (hlen : bytes.length = 16) (hk : k < 16) :
    bytes[k]? = some (frameByte (frameOfBytes bytes) k) := by
  have hplace : 120 - 8 * k = 8 * (bytes.length - 1 - k) := by omega
  rw [frameByte, hplace]
  exact getElem?_eq_extractLsb'_frameOfBytes hlen.le (hlen ▸ hk)

/-- Each byte of a record stands directly above the next one (R30, R31). -/
theorem frameRecord_eq_append_frameByte (frame : Frame) {i : Nat} (hi : i < 4) :
    frameRecord frame i =
      frameByte frame (4 * i) ++ frameByte frame (4 * i + 1) ++ frameByte frame (4 * i + 2) ++
        frameByte frame (4 * i + 3) := by
  unfold frameRecord frameByte
  rw [BitVec.extractLsb'_append_extractLsb'_eq_extractLsb' (by omega),
    BitVec.extractLsb'_append_extractLsb'_eq_extractLsb' (by omega),
    BitVec.extractLsb'_append_extractLsb'_eq_extractLsb' (by omega)]
  congr 1
  omega

/-- Settles O28: the fold pushes byte 0 to the top of the frame, and a record is four neighbouring bytes. -/
theorem frameCarriesTheBuffer : Obligations.FrameCarriesTheBuffer :=
  ⟨fun _ hlen _ hk => getElem?_eq_frameByte hlen hk, fun frame _ hi => frameRecord_eq_append_frameByte frame hi⟩

/-! ### The refusal of a setting -/

theorem applySetting_buffer_error (rsp : Response Fp64) (r : Request Fp64) {bytes : List Byte}
    (h : bytes.length ≠ 16) : applySetting rsp r (.buffer bytes) = .error (.frameSize bytes.length) :=
  if_neg h

/-- After settings that fit, a setting that does not gives the line's refusal, whatever follows it. -/
theorem applySettings_error_of_first {rsp : Response Fp64} {r r' : Request Fp64} {pre : List Setting} {x : Setting}
    {why : Refusal} (more : List Setting) (hpre : applySettings rsp r pre = .ok r')
    (hx : applySetting rsp r' x = .error why) : applySettings rsp r (pre ++ x :: more) = .error why := by
  rw [applySettings_append, hpre]
  exact applySettings_cons_error hx

/-- Settles O29: the buffer is the first setting of the line that does not fit. -/
theorem wrongSizeBufferIsRefused : Obligations.WrongSizeBufferIsRefused :=
  fun s _ _ more _ _ r hhost hpre hlen =>
    step_line_error hhost (applySettings_error_of_first more hpre (applySetting_buffer_error s.rsp r hlen))

end Sys2Proof
end

section
/-! The encoding family of the obligations (spec file 30): decode against encode and against the opcode table (O1, O2, O3, O5),
reserved codes (O56), the request of an assembler line (O7), and the pseudo-instructions CHECK, THR_RT and LIGHT as runs of their
lines (O57, O58, O59). -/

namespace Sys2Proof

open Sys2Proof.Machine Sys2Proof.Safety

/-! ### Decode and encode -/

theorem quad_eq_iff {α : Type} {p q : Quad α} :
    p = q ↔ p.c0 = q.c0 ∧ p.c1 = q.c1 ∧ p.c2 = q.c2 ∧ p.c3 = q.c3 := by
  cases p
  cases q
  simp

@[simp] theorem agreesAt_int {α : Type} [DecidableEq α] {r q : Request α} {f : IntOperand} :
    r.agreesAt q (.int f) = true ↔ r.int f = q.int f :=
  beq_iff_eq

@[simp] theorem agreesAt_fp {α : Type} [DecidableEq α] {r q : Request α} {f : FpOperand} :
    r.agreesAt q (.fp f) = true ↔ r.fp f = q.fp f :=
  beq_iff_eq

theorem decode_encode (i : Instr) : decode (encode i) = i := by
  cases i
  case rsvd low =>
    revert low
    decide
  all_goals rfl

theorem op_encode_decode (r : Request Fp64) : (encode (decode r)).op = r.op := by
  obtain ⟨⟨op, hop⟩, e, m, m12, c, k, word, record, frame, v, ch, cx, cy⟩ := r
  interval_cases op <;> rfl

/-- The decoder takes every operand that the table lists over as it stands in the request, code by code. -/
theorem agreesAt_encode_decode (r : Request Fp64) : ∀ f ∈ (decode r).operands, r.agreesAt (encode (decode r)) f = true := by
  obtain ⟨⟨op, hop⟩, e, m, m12, c, k, word, record, frame, v, ch, cx, cy⟩ := r
  interval_cases op <;> simp [decode, encode, Instr.operands, Request.int, Request.fp]

/-- The code and the listed operands determine the decoded instruction: in each row they are all that decode reads. -/
theorem decode_eq_of_agreesAt {r : Request Fp64} {i : Instr} (hop : r.op = (encode i).op)
    (h : ∀ f ∈ i.operands, r.agreesAt (encode i) f = true) : decode r = i := by
  rw [decode, hop]
  cases i
  case rsvd low =>
    have hlow : ∀ low : BitVec 2, low = 0 ∨ low = 1 ∨ low = 2 ∨ low = 3 := by decide
    rcases hlow low with rfl | rfl | rfl | rfl <;> rfl
  all_goals
    simpa [Instr.operands, Request.int, Request.fp, encode, blankRequest, BitVec.toNat_inj, quad_eq_iff] using h

/-- Settles O3: decode keeps the code and the listed operands, and reads nothing else. -/
theorem decodeInvertsEncode : Obligations.DecodeInvertsEncode := by
  refine fun i => ⟨decode_encode i, fun r => ⟨?_, fun ⟨hop, hf⟩ => decode_eq_of_agreesAt hop hf⟩⟩
  rintro rfl
  exact ⟨(op_encode_decode r).symm, agreesAt_encode_decode r⟩

/-- Settles O5: each written-out request is the encoding of its instruction. -/
theorem writtenRequestsDecode : Obligations.WrittenRequestsDecode :=
  ⟨decode_encode (.pack ..), decode_encode (.unpack _), decode_encode (.deframe _), decode_encode (.verify ..),
    decode_encode (.recon ..), decode_encode (.channels _), decode_encode (.thrEnc _), decode_encode (.thrDec _),
    decode_encode (.color _), decode_encode (.rsvd 0)⟩

/-! ### The opcode table -/

/-- Settles O1: the 16 codes against the 13 rows. -/
theorem everyOpNamesExactlyOneRow : Obligations.EveryOpNamesExactlyOneRow := by
  unfold Obligations.EveryOpNamesExactlyOneRow
  decide

/-- The encoding of every instruction lies in the row that bears its mnemonic. -/
theorem opField_statement (i : Instr) : Laws.OpField.Statement i := by
  cases i
  case pack => exact Laws.OpField.pack ..
  case unpack => exact Laws.OpField.unpack ..
  case deframe => exact Laws.OpField.deframe ..
  case crc4 => exact Laws.OpField.crc4 ..
  case verify => exact Laws.OpField.verify ..
  case recon => exact Laws.OpField.recon ..
  case channels => exact Laws.OpField.channels ..
  case thrEnc => exact Laws.OpField.thrEnc ..
  case thrDec => exact Laws.OpField.thrDec ..
  case matmul => exact Laws.OpField.matmul ..
  case color => exact Laws.OpField.color ..
  case cct => exact Laws.OpField.cct ..
  case rsvd => exact Laws.OpField.rsvd ..

/-- Settles O2: the row that bears the decoded instruction's mnemonic covers the request's code, and no other row does. -/
theorem decodedInstructionIsTheCoveringRow : Obligations.DecodedInstructionIsTheCoveringRow := by
  intro r row hrow hcovers
  obtain ⟨k, own, hown, hmnemonic, hownCovers⟩ := opField_statement (decode r)
  rw [op_encode_decode] at hownCovers
  obtain ⟨covering, -, -, hunique⟩ := everyOpNamesExactlyOneRow r.op
  rw [← hmnemonic, hunique own (List.mem_of_getElem? hown) hownCovers, hunique row hrow hcovers]

/-! ### Reserved codes -/

theorem exists_reserved_low : ∀ op : BitVec 4, op.toNat ≥ 12 → ∃ low : BitVec 2, op = 0b11#2 ++ low := by decide

/-- Settles O56: a reserved code is the code of an RSVD, which reads no operand. -/
theorem reservedCodeResult : Obligations.ReservedCodeResult := by
  refine ⟨fun r hop => ?_, fun _ _ => rfl⟩
  obtain ⟨low, hlow⟩ := exists_reserved_low r.op hop
  exact ⟨low, decode_eq_of_agreesAt hlow (by simp [Instr.operands])⟩

/-! ### The lines of a host -/

/-- Settles O7: `issue` is exec of the decoded request. -/
theorem stepRunsTheAssembledLine : Obligations.StepRunsTheAssembledLine :=
  fun _ _ _ _ _ h hr => step_line_ok h hr

/-- A line whose settings give a request latches `Exec` of it. -/
theorem step_line_respond {s : State} {op : BitVec 4} {xs : List Setting} {rest : List HostAction} {r : Request Fp64}
    (h : s.host = .line op xs :: rest) (hr : applySettings s.rsp (blankRequest op) xs = .ok r) :
    step s = .next { s with rsp := respond s.params r, host := rest } := by
  rw [stepRunsTheAssembledLine s op xs rest r h hr, exec_decode, params_with_host]

/-- A host test that holds is taken off the list, and nothing else happens. -/
theorem step_skipUnlessOk_of_ok {s : State} {n : Nat} {rest : List HostAction} (h : s.host = .skipUnlessOk n :: rest)
    (hs : s.rsp.status = statusOk) : step s = .next { s with host := rest } := by
  simp [step, h, hostAct, hs]

/-- A host test that fails takes `n` more actions off the list. -/
theorem step_skipUnlessOk_of_ne {s : State} {n : Nat} {rest : List HostAction} (h : s.host = .skipUnlessOk n :: rest)
    (hs : s.rsp.status ≠ statusOk) : step s = .next { s with host := rest.drop n } := by
  simp [step, h, hostAct, hs]

theorem applySettings_num {rsp : Response Fp64} {r : Request Fp64} {f : IntOperand} {n : Nat} (xs : List Setting)
    (h : n < 2 ^ f.width) : applySettings rsp r (.num f n :: xs) = applySettings rsp (r.setInt f n) xs :=
  applySettings_cons_ok (assign_of_lt h)

/-- A response field copied into an operand field at least as wide always fits it (R71). -/
theorem applySettings_copy (rsp : Response Fp64) (r : Request Fp64) {f : IntOperand} {src : IntResult} (xs : List Setting)
    (h : resultWidth src ≤ f.width) :
    applySettings rsp r (.copy f src :: xs) = applySettings rsp (r.setInt f (rsp.int src)) xs :=
  applySettings_cons_ok (assign_of_lt ((int_lt rsp src).trans_le (Nat.pow_le_pow_right (by decide) h)))

theorem core_run_succ (M : Host.Core) {s t : M.State} (k : Nat) (h : M.step s = .next t) : M.run (k + 1) s = M.run k t := by
  simp [Host.Core.run, h]

theorem runSteps_succ {s t : State} (k : Nat) (h : step s = .next t) : runSteps (k + 1) s = runSteps k t :=
  core_run_succ core k h

/-! ### CHECK -/

theorem applySettings_record (rsp : Response Fp64) (record : ChanRecord) :
    applySettings rsp (blankRequest 0x2) [.num .record record.toNat] = .ok (encode (.deframe record)) := by
  rw [applySettings_num _ record.isLt, Request.setInt, BitVec.ofNat_toNat]
  simp [applySettings, encode]

theorem applySettings_copy_fields (rsp : Response Fp64) :
    applySettings rsp (blankRequest 0x4) [.copy .e .e, .copy .m .m, .copy .c .c, .copy .k .k] =
      .ok (encode (.verify rsp.e rsp.m rsp.c rsp.k)) := by
  iterate 4 rw [applySettings_copy _ _ _ (by decide)]
  simp [applySettings, Request.setInt, Response.int, encode]

/-- Settles O57: the second line copies the fields that the first one's DEFRAME left. -/
theorem checkMacroVerifiesTheRecord : Obligations.CheckMacroVerifiesTheRecord := by
  intro s record rest h
  rw [runSteps_succ 1 (step_line_respond h (applySettings_record ..)),
    runSteps_succ 0 (step_line_respond rfl (applySettings_copy_fields ..))]
  rfl

/-! ### THR_RT -/

theorem unpackExponent_pack (e : Exponent) (m12 : ThrMantissa) : unpackExponent (pack e m12) = e := by
  ext i hi
  have h16 : 12 + i < 16 ∧ i < 16 := by omega
  simp [unpackExponent, pack, hi, h16]

theorem unpackMantissa_pack (e : Exponent) (m12 : ThrMantissa) : unpackMantissa (pack e m12) = m12 := by
  ext i hi
  have h16 : i < 16 := by omega
  simp [unpackMantissa, pack, hi, h16]

/-- THR_DEC of a packed word decodes the two fields packed into it (R56, R73). -/
theorem thrDecResponse_pack {α : Type} (P : Params α) (e : Exponent) (m12 : ThrMantissa) :
    thrDecResponse P (pack e m12) = { okResponse P with val := thrDecode P.narrow32 e m12 } := by
  rw [thrDecResponse, unpackExponent_pack, unpackMantissa_pack]

theorem applySettings_value (rsp : Response Fp64) (v : ThrValue) :
    applySettings rsp (blankRequest 0x7) [.num .v v.toNat] = .ok (encode (.thrEnc v)) := by
  rw [applySettings_num _ v.isLt, Request.setInt, BitVec.ofNat_toNat]
  simp [applySettings, encode]

theorem applySettings_copy_word (rsp : Response Fp64) :
    applySettings rsp (blankRequest 0x8) [.copy .word .word] = .ok (encode (.thrDec rsp.word)) := by
  rw [applySettings_copy _ _ _ (by decide)]
  simp [applySettings, Request.setInt, Response.int, encode]

/-- Settles O58: the second line copies the word that the first one's THR_ENC packed. -/
theorem thrRtMacroDecodesTheEncodedWord : Obligations.ThrRtMacroDecodesTheEncodedWord := by
  intro s v rest h
  rw [runSteps_succ 1 (step_line_respond h (applySettings_value ..)),
    runSteps_succ 0 (step_line_respond rfl (applySettings_copy_word ..))]
  change Host.Outcome.next { s with
    rsp := thrDecResponse s.params (pack (thrExponent v) (thrMantissa v)), host := rest } = _
  rw [thrDecResponse_pack]
  rfl

/-! ### LIGHT -/

theorem applySettings_frame (rsp : Response Fp64) (frame : Frame) :
    applySettings rsp (blankRequest 0x6) [.num .frame frame.toNat] = .ok (encode (.channels frame)) := by
  rw [applySettings_num _ frame.isLt, Request.setInt, BitVec.ofNat_toNat]
  simp [applySettings, encode]

theorem applySettings_copy_codes (rsp : Response Fp64) :
    applySettings rsp (blankRequest 0xA) [.copy .ch0 .code0, .copy .ch1 .code1, .copy .ch2 .code2, .copy .ch3 .code3] =
      .ok (encode (.color rsp.code)) := by
  iterate 4 rw [applySettings_copy _ _ _ (by decide)]
  simp [applySettings, Request.setInt, Response.int, encode]

theorem applySettings_copy_chromaticity (rsp : Response Fp64) :
    applySettings rsp (blankRequest 0xB) [.copyFp .cx .cx, .copyFp .cy .cy] = .ok (encode (.cct rsp.cx rsp.cy)) := rfl

/-- Settles O59: by whether CHANNELS ends with OK, and then whether COLOR does; a test that fails leaves out what follows. -/
theorem lightMacroMeasuresOrStops : Obligations.LightMacroMeasuresOrStops := by
  intro s frame rest h
  have hfirst := step_line_respond h (applySettings_frame ..)
  by_cases hchannels : (channelsResponse s.params frame).status = statusOk
  · by_cases hcolor : (colorResponse s.params (channelsResponse s.params frame).code).status = statusOk
    · refine ⟨5, le_rfl, ?_⟩
      rw [runSteps_succ 4 hfirst, runSteps_succ 3 (step_skipUnlessOk_of_ok rfl hchannels),
        runSteps_succ 2 (step_line_respond rfl (applySettings_copy_codes ..)),
        runSteps_succ 1 (step_skipUnlessOk_of_ok rfl hcolor),
        runSteps_succ 0 (step_line_respond rfl (applySettings_copy_chromaticity ..)), lightResponse, if_pos hchannels,
        if_pos hcolor]
      rfl
    · refine ⟨4, by decide, ?_⟩
      rw [runSteps_succ 3 hfirst, runSteps_succ 2 (step_skipUnlessOk_of_ok rfl hchannels),
        runSteps_succ 1 (step_line_respond rfl (applySettings_copy_codes ..)),
        runSteps_succ 0 (step_skipUnlessOk_of_ne rfl hcolor), lightResponse, if_pos hchannels, if_neg hcolor]
      rfl
  · refine ⟨2, by decide, ?_⟩
    rw [runSteps_succ 1 hfirst, runSteps_succ 0 (step_skipUnlessOk_of_ne rfl hchannels), lightResponse, if_neg hchannels]
    rfl

end Sys2Proof
end

section
/-! The bitfield codec family of the obligations (spec file 40): PACK and UNPACK in arithmetic (O22, O23), as inverse maps (O24), and
UNPACK of a record's MSB register against the fields of DEFRAME (O25). -/

namespace Sys2Proof

open Sys2Proof.Machine

/-! ### PACK as concatenation -/

theorem pack_eq_append (e : Exponent) (m12 : ThrMantissa) : pack e m12 = e ++ m12 :=
  BitVec.setWidth_append_eq_shiftLeft_setWidth_or.symm.trans (BitVec.setWidth_eq _)

theorem toNat_pack (e : Exponent) (m12 : ThrMantissa) : (pack e m12).toNat = e.toNat * 2 ^ 12 + m12.toNat := by
  rw [pack_eq_append, BitVec.toNat_append, ← Nat.shiftLeft_add_eq_or_of_lt m12.isLt, Nat.shiftLeft_eq]

theorem pack_eq_ofNat (e : Exponent) (m12 : ThrMantissa) :
    pack e m12 = BitVec.ofNat 16 (e.toNat * 2 ^ 12 + m12.toNat) := by
  rw [← toNat_pack, BitVec.ofNat_toNat, BitVec.setWidth_eq]

/-- Settles O22: PACK concatenates its two fields, which is their sum once the exponent is scaled. -/
theorem packResult : Obligations.PackResult := by
  refine ⟨fun r hop => decode_eq_of_agreesAt hop (by simp [Instr.operands, encode, Request.int]), fun e m12 s => ?_⟩
  rw [← pack_eq_ofNat]
  rfl

/-! ### UNPACK as division with remainder -/

theorem unpackExponent_eq_ofNat (word : RegWord) : unpackExponent word = BitVec.ofNat 4 (word.toNat / 2 ^ 12) := by
  rw [unpackExponent, BitVec.extractLsb', Nat.shiftRight_eq_div_pow]

theorem unpackMantissa_eq_ofNat (word : RegWord) : unpackMantissa word = BitVec.ofNat 12 (word.toNat % 2 ^ 12) :=
  BitVec.eq_of_toNat_eq (by simp [unpackMantissa])

/-- Settles O23: the two parts of a word are its quotient and remainder by `2 ^ 12`. -/
theorem unpackResult : Obligations.UnpackResult := by
  refine ⟨fun r hop => decode_eq_of_agreesAt hop (by simp [Instr.operands, encode, Request.int]), fun word s => ?_⟩
  rw [← unpackExponent_eq_ofNat, ← unpackMantissa_eq_ofNat]
  rfl

/-! ### PACK and UNPACK are inverse -/

theorem pack_unpack (word : RegWord) : pack (unpackExponent word) (unpackMantissa word) = word :=
  calc pack (unpackExponent word) (unpackMantissa word)
    _ = word.extractLsb' 12 4 ++ word.extractLsb' 0 12 := pack_eq_append ..
    _ = word.extractLsb' 0 16 := BitVec.extractLsb'_append_extractLsb'_eq_extractLsb' rfl
    _ = word := BitVec.extractLsb'_eq_self

/-- Settles O24: both maps relate a word to the concatenation of its two parts. -/
theorem packUnpackBijection : Obligations.PackUnpackBijection :=
  ⟨fun e m => ⟨unpackExponent_pack e m, unpackMantissa_pack e m⟩, pack_unpack⟩

/-! ### The MSB register of a record -/

/-- Bits of a range of bits are bits of the whole. -/
theorem extractLsb'_extractLsb' {w : Nat} (x : BitVec w) {start len start' len' : Nat} (h : start' + len' ≤ len) :
    (x.extractLsb' start len).extractLsb' start' len' = x.extractLsb' (start + start') len' := by
  ext i hi
  have hlen : start' + i < len := by omega
  simp [hlen, Nat.add_assoc]

theorem deframe_e (r : ChanRecord) : (deframe r).e = r.extractLsb' 28 4 :=
  extractLsb'_extractLsb' r (by decide)

/-- The three bytes that carry the mantissa are adjacent in the record (R58). -/
theorem deframe_m (r : ChanRecord) : (deframe r).m = r.extractLsb' 8 20 :=
  calc (deframe r).m
    _ = (r.extractLsb' 24 8).extractLsb' 0 4 ++ r.extractLsb' 16 8 ++ r.extractLsb' 8 8 :=
      BitVec.setWidth_append_eq_shiftLeft_setWidth_or.symm.trans (BitVec.setWidth_eq _)
    _ = r.extractLsb' 24 4 ++ r.extractLsb' 16 8 ++ r.extractLsb' 8 8 := by rw [extractLsb'_extractLsb' r (by decide)]
    _ = r.extractLsb' 16 12 ++ r.extractLsb' 8 8 :=
      congrArg (· ++ _) (BitVec.extractLsb'_append_extractLsb'_eq_extractLsb' rfl)
    _ = r.extractLsb' 8 20 := BitVec.extractLsb'_append_extractLsb'_eq_extractLsb' rfl

/-- Settles O25: on both sides the exponent is bits 31:28 of the record, and the mantissa's high part is bits 27:16. -/
theorem msbRegisterUnpacks : Obligations.MsbRegisterUnpacks := by
  intro r
  rw [unpackExponent, unpackMantissa, msbReg, deframe_e, deframe_m]
  iterate 3 rw [extractLsb'_extractLsb' r (by decide)]
  exact ⟨rfl, rfl⟩

end Sys2Proof
end

section
/-! The deframer family of the obligations (spec files 41 and 20): DEFRAME by bit ranges of the record (O26), assembly and deframing
as inverse maps (O27), and the four channels of a frame by its bytes (O38). -/

namespace Sys2Proof

open Sys2Proof.Machine

/-! ### The fields of a record -/

theorem deframe_c (r : ChanRecord) : (deframe r).c = r.extractLsb' 4 4 :=
  extractLsb'_extractLsb' r (by decide)

theorem deframe_k (r : ChanRecord) : (deframe r).k = r.extractLsb' 0 4 :=
  extractLsb'_extractLsb' r (by decide)

/-- Settles O26: the fields that the byte formulas of R58 give are ranges of bits of the record. -/
theorem deframeResult : Obligations.DeframeResult := by
  refine ⟨fun r hop => decode_eq_of_agreesAt hop (by simp [Instr.operands, encode, Request.int]), fun record s => ?_⟩
  rw [← deframe_e, ← deframe_m, ← deframe_c, ← deframe_k]
  rfl

/-! ### Concatenations of bit vectors -/

theorem toNat_append_eq_mul_add {v w : Nat} (x : BitVec v) (y : BitVec w) :
    (x ++ y).toNat = x.toNat * 2 ^ w + y.toNat := by
  rw [BitVec.toNat_append, ← Nat.shiftLeft_add_eq_or_of_lt y.isLt, Nat.shiftLeft_eq]

/-- Each of four concatenated parts stands above the widths of the parts after it. -/
theorem extractLsb'_append_four {n₀ n₁ n₂ n₃ : Nat} (x₀ : BitVec n₀) (x₁ : BitVec n₁) (x₂ : BitVec n₂) (x₃ : BitVec n₃) :
    (x₀ ++ x₁ ++ x₂ ++ x₃).extractLsb' (n₁ + n₂ + n₃) n₀ = x₀ ∧
    (x₀ ++ x₁ ++ x₂ ++ x₃).extractLsb' (n₂ + n₃) n₁ = x₁ ∧
    (x₀ ++ x₁ ++ x₂ ++ x₃).extractLsb' n₃ n₂ = x₂ ∧
    (x₀ ++ x₁ ++ x₂ ++ x₃).extractLsb' 0 n₃ = x₃ := by
  simp [BitVec.extractLsb'_append_eq_of_le, BitVec.extractLsb'_append_eq_right]

/-! ### Assembly and deframing are inverse -/

theorem deframe_recordOf (f : ChannelFrame) : deframe (recordOf f) = f := by
  rcases f with ⟨e, m, c, k⟩
  rw [ChannelFrame.mk.injEq, deframe_e, deframe_m, deframe_c, deframe_k]
  exact extractLsb'_append_four e m c k

/-- The fields of a record are adjacent and fill it (R58, R59). -/
theorem recordOf_deframe (r : ChanRecord) : recordOf (deframe r) = r :=
  calc recordOf (deframe r)
    _ = r.extractLsb' 28 4 ++ r.extractLsb' 8 20 ++ r.extractLsb' 4 4 ++ r.extractLsb' 0 4 := by
      rw [recordOf, deframe_e, deframe_m, deframe_c, deframe_k]
    _ = r.extractLsb' 8 24 ++ r.extractLsb' 4 4 ++ r.extractLsb' 0 4 :=
      congrArg (· ++ _ ++ _) (BitVec.extractLsb'_append_extractLsb'_eq_extractLsb' rfl)
    _ = r.extractLsb' 4 28 ++ r.extractLsb' 0 4 :=
      congrArg (· ++ _) (BitVec.extractLsb'_append_extractLsb'_eq_extractLsb' rfl)
    _ = r.extractLsb' 0 32 := BitVec.extractLsb'_append_extractLsb'_eq_extractLsb' rfl
    _ = r := BitVec.extractLsb'_eq_self

theorem toNat_recordOf (f : ChannelFrame) :
    (recordOf f).toNat = f.e.toNat * 2 ^ 28 + f.m.toNat * 2 ^ 8 + f.c.toNat * 2 ^ 4 + f.k.toNat := by
  simp only [recordOf, toNat_append_eq_mul_add]
  omega

/-- Settles O27: a record is the concatenation of its four fields, which is their sum once each is scaled to its place. -/
theorem recordAssemblyInvertsDeframe : Obligations.RecordAssemblyInvertsDeframe :=
  ⟨deframe_recordOf, recordOf_deframe, toNat_recordOf⟩

/-! ### The channels of a frame -/

/-- Deframing four bytes cuts the first and the last one into nibbles (R58). -/
theorem deframe_append_bytes (b0 b1 b2 b3 : Byte) :
    deframe (b0 ++ b1 ++ b2 ++ b3) =
      ⟨b0.extractLsb' 4 4, b0.extractLsb' 0 4 ++ b1 ++ b2, b3.extractLsb' 4 4, b3.extractLsb' 0 4⟩ := by
  obtain ⟨h0, h1, h2, h3⟩ := extractLsb'_append_four b0 b1 b2 b3
  have hm : ((b0.extractLsb' 0 4 ++ b1).setWidth 20 <<< 8) ||| b2.setWidth 20 = b0.extractLsb' 0 4 ++ b1 ++ b2 :=
    BitVec.setWidth_append_eq_shiftLeft_setWidth_or.symm.trans (BitVec.setWidth_eq _)
  simp only [deframe, h0, h1, h2, h3, hm]

/-- Settles O38: a channel is the deframed record, and the record is four neighbouring bytes of the frame. -/
theorem channelFieldsOfTheFrame : Obligations.ChannelFieldsOfTheFrame := by
  intro frame i hi
  rw [channel, frameRecord_eq_append_frameByte frame hi, deframe_append_bytes]
  exact ⟨rfl, rfl, rfl, rfl⟩

end Sys2Proof
end

section
/-! The integrity family of the obligations (spec file 42): the integrity function by bits, as a linear map, and by masked parities
(O31), CRC4 (O32), VERIFY (O33), and what VERIFY detects (O34). -/

namespace Sys2Proof

open Sys2Proof.Machine

/-! ### The bits of the code -/

theorem nibble_eq_iff {x y : Nibble} :
    x = y ↔ x.getLsbD 0 = y.getLsbD 0 ∧ x.getLsbD 1 = y.getLsbD 1 ∧ x.getLsbD 2 = y.getLsbD 2 ∧
      x.getLsbD 3 = y.getLsbD 3 := by
  refine ⟨fun h => by simp only [h, and_self], fun ⟨h0, h1, h2, h3⟩ => BitVec.eq_of_getLsbD_eq fun i hi => ?_⟩
  interval_cases i <;> assumption

theorem getLsbD_append_four_ofBool : ∀ x3 x2 x1 x0 : Bool,
    (BitVec.ofBool x3 ++ BitVec.ofBool x2 ++ BitVec.ofBool x1 ++ BitVec.ofBool x0).getLsbD 0 = x0 ∧
    (BitVec.ofBool x3 ++ BitVec.ofBool x2 ++ BitVec.ofBool x1 ++ BitVec.ofBool x0).getLsbD 1 = x1 ∧
    (BitVec.ofBool x3 ++ BitVec.ofBool x2 ++ BitVec.ofBool x1 ++ BitVec.ofBool x0).getLsbD 2 = x2 ∧
    (BitVec.ofBool x3 ++ BitVec.ofBool x2 ++ BitVec.ofBool x1 ++ BitVec.ofBool x0).getLsbD 3 = x3 := by
  decide

/-- The four bits of the code, each as the XOR of listed bits of the data (R51, R61). -/
theorem getLsbD_crc4 (e : Exponent) (m : Mantissa) (c : Nibble) :
    (crc4 e m c).getLsbD 0 = (parity e ^^ parity m ^^ parity c) ∧
    (crc4 e m c).getLsbD 1 =
      (c.getLsbD 1 ^^ c.getLsbD 3 ^^ xorBits m [1, 3, 5, 7, 9, 11, 13, 15, 17, 19] ^^ e.getLsbD 1 ^^ e.getLsbD 3) ∧
    (crc4 e m c).getLsbD 2 = (c.getLsbD 3 ^^ xorBits m [3, 7, 11, 15, 19] ^^ e.getLsbD 3) ∧
    (crc4 e m c).getLsbD 3 = (m.getLsbD 3 ^^ m.getLsbD 11 ^^ m.getLsbD 19) :=
  getLsbD_append_four_ofBool ..

/-! ### Linearity -/

/-- What `ac_rfl` needs to know of the XOR of two bits besides associativity. -/
theorem xor_commutative : Std.Commutative xor := ⟨Bool.xor_comm⟩

/-- The code is linear, since each of its bits is an XOR of bits of the data (R61). -/
theorem crc4_xor (e e' : Exponent) (m m' : Mantissa) (c c' : Nibble) :
    crc4 (e ^^^ e') (m ^^^ m') (c ^^^ c') = crc4 e m c ^^^ crc4 e' m' c' := by
  rw [nibble_eq_iff]
  have := xor_commutative
  simp only [BitVec.getLsbD_xor, getLsbD_crc4, parity, xorBits_xor]
  refine ⟨?_, ?_, ?_, ?_⟩ <;> ac_rfl

/-- Changed data keep their code exactly when the change has code 0. -/
theorem crc4_xor_eq_iff (e e' : Exponent) (m m' : Mantissa) (c c' : Nibble) :
    crc4 (e ^^^ e') (m ^^^ m') (c ^^^ c') = crc4 e m c ↔ crc4 e' m' c' = 0 := by
  rw [crc4_xor, ← BitVec.xor_right_inj (crc4 e m c), xor_cancel_left, LawfulXor.xor_self]

/-! ### Masked parities -/

/-- A mask selects positions: the parity under it is the XOR of the bits where it is set (R11, R61). -/
theorem parity_and {w : Nat} (v mask : BitVec w) :
    parity (v &&& mask) = xorBits v ((List.range w).filter mask.getLsbD) := by
  rw [parity]
  induction List.range w with
  | nil => rfl
  | cons i rest ih => cases hi : mask.getLsbD i <;> simp [xorBits, hi, ih]

/-- The positions that the masks of R61 select. -/
theorem getLsbD_crc4Masked (e : Exponent) (m : Mantissa) (c : Nibble) :
    (crc4Masked e m c).getLsbD 0 = (parity e ^^ parity m ^^ parity c) ∧
    (crc4Masked e m c).getLsbD 1 =
      (xorBits e [1, 3] ^^ xorBits m [1, 3, 5, 7, 9, 11, 13, 15, 17, 19] ^^ xorBits c [1, 3]) ∧
    (crc4Masked e m c).getLsbD 2 = (xorBits e [3] ^^ xorBits m [3, 7, 11, 15, 19] ^^ xorBits c [3]) ∧
    (crc4Masked e m c).getLsbD 3 = xorBits m [3, 11, 19] := by
  simp only [crc4Masked, parity_and]
  exact getLsbD_append_four_ofBool ..

/-- The two forms of R61 differ in the order of their summands. -/
theorem crc4_eq_crc4Masked (e : Exponent) (m : Mantissa) (c : Nibble) : crc4 e m c = crc4Masked e m c := by
  rw [nibble_eq_iff]
  simp only [getLsbD_crc4, getLsbD_crc4Masked, xorBits, Bool.xor_false, true_and]
  have := xor_commutative
  refine ⟨?_, ?_, ?_⟩ <;> ac_rfl

/-- Settles O31: the bit formulas give linearity and, up to the order of their summands, the masked parities. -/
theorem integrityFunction : Obligations.IntegrityFunction := by
  refine ⟨fun e m c => ?_, crc4_xor, by decide, by decide, by decide, by decide⟩
  obtain ⟨h0, h1, h2, h3⟩ := getLsbD_crc4 e m c
  simp only [xorBits, Bool.xor_false] at h1 h2
  exact ⟨h0, by simpa only [Bool.xor_assoc] using h1, by simpa only [Bool.xor_assoc] using h2, h3, crc4_eq_crc4Masked e m c⟩

/-! ### CRC4 -/

/-- Settles O32: the code that CRC4 writes, put in R61's second form. -/
theorem crc4Result : Obligations.Crc4Result := by
  refine ⟨fun r hop => decode_eq_of_agreesAt hop (by simp [Instr.operands, encode, Request.int]), fun e m c s => ?_⟩
  rw [← crc4_eq_crc4Masked]
  rfl

/-! ### VERIFY -/

section Verify
variable {e : Exponent} {m : Mantissa} {c k : Nibble}

theorem verifyResponse_of_eq {α : Type} (P : Params α) (h : crc4 e m c = k) :
    verifyResponse P e m c k = { okResponse P with k := k, ok := true } := by
  rw [verifyResponse, beq_iff_eq.mpr h, h]
  rfl

theorem verifyResponse_of_ne {α : Type} (P : Params α) (h : crc4 e m c ≠ k) :
    verifyResponse P e m c k = { errorResponse P statusIntegrityMismatch with k := crc4 e m c } := by
  rw [verifyResponse, beq_eq_false_iff_ne.mpr h]
  rfl

theorem exec_verify (e : Exponent) (m : Mantissa) (c k : Nibble) (s : State) :
    exec (.verify e m c k) s = .next { s with rsp := verifyResponse s.params e m c k } := rfl

/-- A code other than the recomputed one is reported (R63). -/
theorem exec_verify_of_ne (s : State) (h : crc4 e m c ≠ k) :
    ∃ t, exec (.verify e m c k) s = .next t ∧ t.rsp.status = 2 ∧ t.rsp.ok = false :=
  ⟨_, exec_verify .., by rw [verifyResponse_of_ne _ h]; exact ⟨rfl, rfl⟩⟩

end Verify

/-- Settles O33: by whether the received code is the recomputed one. -/
theorem verifyResult : Obligations.VerifyResult := by
  refine ⟨fun r hop => decode_eq_of_agreesAt hop (by simp [Instr.operands, encode, Request.int]),
    fun e m c k s => ⟨fun h => ?_, fun h => ?_⟩⟩
  · rw [exec_verify, verifyResponse_of_eq _ h]
    rfl
  · rw [exec_verify, verifyResponse_of_ne _ h]
    rfl

section Changes
variable (e e' : Exponent) (m m' : Mantissa) (c c' : Nibble) (s : State)

/-- A change of the data is reported when its own code is not 0 (R64). -/
theorem exec_verify_change_of_ne (h : crc4 e' m' c' ≠ 0) :
    ∃ t, exec (.verify (e ^^^ e') (m ^^^ m') (c ^^^ c') (crc4 e m c)) s = .next t ∧ t.rsp.status = 2 := by
  obtain ⟨t, ht, hstatus, -⟩ := exec_verify_of_ne s (mt (crc4_xor_eq_iff e e' m m' c c').mp h)
  exact ⟨t, ht, hstatus⟩

/-- A change of the data is not noticed when its own code is 0 (R64). -/
theorem exec_verify_change_of_eq (h : crc4 e' m' c' = 0) :
    ∃ t, exec (.verify (e ^^^ e') (m ^^^ m') (c ^^^ c') (crc4 e m c)) s = .next t ∧ t.rsp.status = 1 :=
  ⟨_, exec_verify .., by rw [verifyResponse_of_eq _ ((crc4_xor_eq_iff ..).mpr h)]; rfl⟩

end Changes

/-! ### Single data bits -/

/-- Of distinct positions at most one is that of a single set bit. -/
theorem xorBits_one_shiftLeft {w i : Nat} (hi : i < w) {l : List Nat} (hl : l.Nodup) :
    xorBits (1#w <<< i) l = decide (i ∈ l) := by
  induction l with
  | nil => rfl
  | cons j rest ih =>
    obtain ⟨hj, hrest⟩ := List.nodup_cons.mp hl
    rw [xorBits, ih hrest, ← BitVec.twoPow_eq, BitVec.getLsbD_twoPow]
    by_cases hij : i = j
    · simp [← hij, hi, hij ▸ hj]
    · simp [hij]

theorem parity_one_shiftLeft {w i : Nat} (hi : i < w) : parity (1#w <<< i) = true := by
  rw [parity, xorBits_one_shiftLeft hi List.nodup_range, decide_eq_true (List.mem_range.mpr hi)]

/-- Data of odd parity have bit 0 of their code set (R64). -/
theorem crc4_ne_zero_of_parity {e : Exponent} {m : Mantissa} {c : Nibble}
    (h : (parity e ^^ parity m ^^ parity c) = true) : crc4 e m c ≠ 0 := by
  intro h0
  rw [← (getLsbD_crc4 e m c).1, h0] at h
  exact absurd h (by decide)

/-- Settles O34: by linearity only the code of the change counts, which is not 0 for a single bit and 0 for the two pairs. -/
theorem verifyDetection : Obligations.VerifyDetection := by
  refine ⟨fun e m c k s h => exec_verify_of_ne s h.symm, fun e m c s i => ⟨fun hi => ?_, fun hi => ?_, fun hi => ?_⟩,
    fun e m c s => ⟨?_, ?_⟩⟩
  · simpa using exec_verify_change_of_ne e _ m 0 c 0 s (crc4_ne_zero_of_parity (by rw [parity_one_shiftLeft hi]; rfl))
  · simpa using exec_verify_change_of_ne e 0 m _ c 0 s (crc4_ne_zero_of_parity (by rw [parity_one_shiftLeft hi]; rfl))
  · simpa using exec_verify_change_of_ne e 0 m 0 c _ s (crc4_ne_zero_of_parity (by rw [parity_one_shiftLeft hi]; rfl))
  · simpa using exec_verify_change_of_eq e 0 m 0x00005 c 0 s (by decide)
  · simpa using exec_verify_change_of_eq e 0 m 0x00808 c 0 s (by decide)

end Sys2Proof
end

section
/-! The reconstruction family of the obligations (spec file 43): the arithmetic of a reconstructed code (O35), RECON (O36), CHANNELS on
a right and on a wrong frame (O37), and its answer to a flipped bit of an integrity nibble (O39). -/

namespace Sys2Proof

open Sys2Proof.Machine

/-! ### The reconstruction -/

theorem toNat_mul_two_pow_lt {w : Nat} (m : BitVec w) (k : Nat) : m.toNat * 2 ^ k < 2 ^ (w + k) :=
  Nat.pow_add 2 w k ▸ Nat.mul_lt_mul_of_pos_right m.isLt (Nat.two_pow_pos k)

/-- A shift in 35 bits loses nothing of a mantissa that has room for it (R66, R72). -/
theorem toNat_setWidth_shiftLeft {w k : Nat} (m : BitVec w) (h : w + k ≤ 35) :
    (m.setWidth 35 <<< k).toNat = m.toNat * 2 ^ k := by
  have hm : m.toNat < 2 ^ 35 := m.isLt.trans_le (Nat.pow_le_pow_right two_pos (by omega))
  have hshift : m.toNat * 2 ^ k < 2 ^ 35 := (toNat_mul_two_pow_lt m k).trans_le (Nat.pow_le_pow_right two_pos h)
  rw [BitVec.toNat_shiftLeft, BitVec.toNat_setWidth, Nat.shiftLeft_eq, Nat.mod_eq_of_lt hm, Nat.mod_eq_of_lt hshift]

theorem toNat_recon_false (e : Exponent) (m : Mantissa) : (recon false e m).toNat = m.toNat * 2 ^ e.toNat :=
  toNat_setWidth_shiftLeft m (by omega)

theorem toNat_recon_true (e : Exponent) (m : Mantissa) :
    (recon true e m).toNat = m.toNat * 2 ^ e.toNat % 2 ^ 32 := by
  rw [← toNat_recon_false]
  exact narrow_true_toNat _

/-- A code of at most 32 bits is the same in both widths (R66). -/
theorem recon_true_eq_of_lt {e : Exponent} (m : Mantissa) (he : e.toNat < 13) : recon true e m = recon false e m := by
  have hcode : m.toNat * 2 ^ e.toNat < 2 ^ 32 :=
    (toNat_mul_two_pow_lt m e.toNat).trans_le (Nat.pow_le_pow_right two_pos (by omega))
  refine BitVec.eq_of_toNat_eq ?_
  rw [toNat_recon_true, toNat_recon_false, Nat.mod_eq_of_lt hcode]

/-- Settles O35: the shift keeps every bit of the mantissa, and the narrowed code is its remainder. -/
theorem reconstructionIsExact : Obligations.ReconstructionIsExact :=
  fun e m => ⟨toNat_recon_false e m, toNat_recon_true e m,
    fun hne => Nat.le_of_not_lt fun he => hne (recon_true_eq_of_lt m he)⟩

/-! ### RECON -/

theorem recon_eq_ofNat (narrow32 : Bool) (e : Exponent) (m : Mantissa) :
    recon narrow32 e m =
      BitVec.ofNat 35 (if narrow32 then m.toNat * 2 ^ e.toNat % 2 ^ 32 else m.toNat * 2 ^ e.toNat) := by
  rw [← toNat_recon_true, ← toNat_recon_false]
  cases narrow32 <;> simp

/-- Settles O36: the value that RECON writes, put in numbers. -/
theorem reconResult : Obligations.ReconResult := by
  refine ⟨fun r hop => decode_eq_of_agreesAt hop (by simp [Instr.operands, encode, Request.int]), fun e m s => ?_⟩
  rw [← recon_eq_ofNat]
  rfl

/-! ### The verdict on a frame -/

theorem passes_iff {f : ChannelFrame} : f.passes = true ↔ crc4 f.e f.m f.c = f.k :=
  beq_iff_eq

/-- Failing fast gives the conjunction of the verdicts (R69). -/
theorem allPass_iff {fs : List ChannelFrame} : allPass fs = true ↔ ∀ f ∈ fs, f.passes = true := by
  induction fs with
  | nil => simp [allPass]
  | cons f rest ih => simp [allPass, ih]

theorem framePasses_iff {frame : Frame} : framePasses frame = true ↔ ∀ i < 4, (channel frame i).passes = true :=
  calc framePasses frame = true
    _ ↔ ∀ f ∈ (List.range 4).map (channel frame), f.passes = true := allPass_iff
    _ ↔ ∀ i < 4, (channel frame i).passes = true := by simp only [List.forall_mem_map, List.mem_range]

/-! ### CHANNELS -/

section Channels
variable {frame : Frame}

theorem exec_channels (frame : Frame) (s : State) :
    exec (.channels frame) s = .next { s with rsp := channelsResponse s.params frame } := rfl

theorem channelsResponse_of_pass {α : Type} (P : Params α) (h : framePasses frame = true) :
    channelsResponse P frame =
      { okResponse P with
        ok := true,
        code := ⟨channelCode P.narrow32 frame 0, channelCode P.narrow32 frame 1,
                 channelCode P.narrow32 frame 2, channelCode P.narrow32 frame 3⟩ } :=
  if_pos h

/-- One channel that does not pass is enough for the frame to be rejected, without any code (R69, D12). -/
theorem exec_channels_of_fail {i : Nat} (s : State) (hi : i < 4) (h : (channel frame i).passes ≠ true) :
    exec (.channels frame) s = .next { s with rsp := errorResponse s.params statusIntegrityMismatch } := by
  rw [exec_channels, channelsResponse, if_neg fun hp => h (framePasses_iff.mp hp i hi)]

/-- The status OK is that of a frame whose channels all pass (R69, R84). -/
theorem framePasses_of_exec_status_ok {s t : State} (h : exec (.channels frame) s = .next t) (ht : t.rsp.status = 1) :
    framePasses frame = true := by
  by_contra hfail
  cases h
  rw [channelsResponse, if_neg hfail] at ht
  exact absurd ht (show statusIntegrityMismatch ≠ 1 by decide)

end Channels

/-- Settles O37: by whether every channel of the frame passes. -/
theorem channelsResult : Obligations.ChannelsResult := by
  refine ⟨fun r hop => decode_eq_of_agreesAt hop (by simp [Instr.operands, encode, Request.int]),
    fun frame s => ⟨fun h => ?_, fun i hi h => ?_⟩⟩
  · rw [exec_channels, channelsResponse_of_pass _ (framePasses_iff.mpr fun i hi => passes_iff.mpr (h i hi))]
    rfl
  · exact exec_channels_of_fail s hi (mt passes_iff.mp h)

/-! ### A flipped bit of an integrity nibble -/

/-- A set bit inside a range of bits is that bit of the range. -/
theorem extractLsb'_one_shiftLeft {w start len j : Nat} (h : start + j < w) :
    (1#w <<< (start + j)).extractLsb' start len = 1#len <<< j := by
  rw [← BitVec.twoPow_eq, ← BitVec.twoPow_eq]
  ext i hi
  simp [BitVec.getLsbD_twoPow, BitVec.getElem_twoPow, h, eq_comm]

/-- The flipped bit of the frame is a bit of the low nibble of its record (R31). -/
theorem frameRecord_flip (frame : Frame) {i b : Nat} (hi : i < 4) (hb : b < 4) :
    frameRecord (frame ^^^ 1#128 <<< (96 - 32 * i + b)) i = frameRecord frame i ^^^ 1#32 <<< b := by
  rw [frameRecord, BitVec.extractLsb'_xor, extractLsb'_one_shiftLeft (by omega)]
  rfl

/-- Bits 3:0 of a record are its integrity code alone (R58). -/
theorem deframe_flip (r : ChanRecord) {b : Nat} (hb : b < 4) :
    deframe (r ^^^ 1#32 <<< b) = { deframe r with k := (deframe r).k ^^^ 1#4 <<< b } := by
  rw [ChannelFrame.mk.injEq]
  simp only [deframe_e, deframe_m, deframe_c, deframe_k, BitVec.extractLsb'_xor]
  interval_cases b <;> simp

theorem channel_flip (frame : Frame) {i b : Nat} (hi : i < 4) (hb : b < 4) :
    channel (frame ^^^ 1#128 <<< (96 - 32 * i + b)) i =
      { channel frame i with k := (channel frame i).k ^^^ 1#4 <<< b } := by
  rw [channel, frameRecord_flip frame hi hb, deframe_flip _ hb]
  rfl

/-- The recomputed code does not depend on the received one (R61, R64). -/
theorem not_passes_of_flip {f : ChannelFrame} {b : Nat} (hf : f.passes = true) (hb : b < 4) :
    ({ f with k := f.k ^^^ 1#4 <<< b } : ChannelFrame).passes ≠ true := by
  rw [Ne, passes_iff, passes_iff.mp hf, eq_comm, xor_left_eq_self_iff]
  revert b
  decide

/-- Settles O39: the channel passed before, and the flip changes nothing of it but the received code. -/
theorem channelsRejectsAFlippedNibbleBit : Obligations.ChannelsRejectsAFlippedNibbleBit := by
  intro frame s t i b hi hb hexec hstatus
  have hpass := framePasses_iff.mp (framePasses_of_exec_status_ok hexec hstatus) i hi
  exact exec_channels_of_fail s hi (channel_flip frame hi hb ▸ not_passes_of_flip hpass hb)

end Sys2Proof
end

section
/-! The threshold family of the obligations (spec file 44): the encoder's loop against its closed form (O40), THR_ENC (O41),
THR_DEC (O42), and what decoding an encoded threshold gives (O43). -/

namespace Sys2Proof

open Sys2Proof.Machine

/-! ### The bit length -/

theorem bitlen_le_iff {n k : Nat} : bitlen n ≤ k ↔ n < 2 ^ k := by
  by_cases hn : n = 0
  · simp [bitlen, hn]
  · rw [bitlen, if_neg hn, Nat.succ_le_iff, Nat.log2_lt hn]

theorem lt_bitlen_iff {n k : Nat} : k < bitlen n ↔ 2 ^ k ≤ n := by
  rw [← not_le, bitlen_le_iff, not_lt]

theorem lt_bitlen_div_two {n k : Nat} (h : k + 1 < bitlen n) : k < bitlen (n / 2) := by
  rw [lt_bitlen_iff] at h ⊢
  rwa [Nat.le_div_iff_mul_le two_pos]

/-- A number of `12 + d` bits has 12 bits left when `d` are dropped. -/
theorem div_two_pow_bitlen_le (n : Nat) : n / 2 ^ (bitlen n - 12) ≤ 4095 := by
  have hn : n < 2 ^ (12 + (bitlen n - 12)) := bitlen_le_iff.mp (by omega)
  rw [pow_add] at hn
  exact Nat.le_of_lt_succ (Nat.div_lt_of_lt_mul (mul_comm (2 ^ 12) _ ▸ hn))

/-- The bits that are left include the highest one, so a longer number keeps a mantissa of full length (R75). -/
theorem mul_two_pow_bitlen_le {n : Nat} (hn : 4096 ≤ n) : 2048 * 2 ^ (bitlen n - 12) ≤ n := by
  have hb : 12 < bitlen n := lt_bitlen_iff.mpr hn
  calc 2048 * 2 ^ (bitlen n - 12)
    _ = 2 ^ (11 + (bitlen n - 12)) := (pow_add 2 11 _).symm
    _ ≤ n := lt_bitlen_iff.mp (by omega)

theorem two_pow_bitlen_le {n : Nat} (hn : 1 ≤ n) : 2 ^ (bitlen n - 12) ≤ n := by
  have hb : 0 < bitlen n := lt_bitlen_iff.mpr hn
  exact lt_bitlen_iff.mp (by omega)

/-! ### The encoder's loop -/

theorem thrNormalize_of_le (fuel e : Nat) {m : Nat} (hm : m ≤ 4095) : thrNormalize fuel e m = (e, m) := by
  cases fuel with
  | zero => rfl
  | succ fuel => rw [thrNormalize, if_neg fun h => absurd h.1 (not_lt.mpr hm)]

/-- The loop makes `d` turns on a mantissa of at least `12 + d` bits (R74). -/
theorem thrNormalize_turns {d : Nat} (fuel : Nat) {e m : Nat} (he : e + d ≤ 15) (hm : d ≤ bitlen m - 12) :
    thrNormalize (fuel + d) e m = thrNormalize fuel (e + d) (m / 2 ^ d) := by
  induction d generalizing e m with
  | zero => simp
  | succ d ih =>
    have hlarge : 2 ^ (12 + d) ≤ m := lt_bitlen_iff.mp (by omega)
    have hturn : m > 4095 ∧ e < 15 := ⟨(Nat.pow_le_pow_right two_pos (Nat.le_add_right 12 d)).trans hlarge, by omega⟩
    have hhalf : 11 + d < bitlen (m / 2) := lt_bitlen_div_two (by omega)
    rw [← add_assoc, thrNormalize, if_pos hturn, ih (by omega) (by omega), Nat.div_div_eq_div_mul, ← pow_succ',
      add_right_comm, add_assoc]

section Encoder
variable {v : ThrValue}

/-- Below `2 ^ 27` the encoder drops the bits that exceed 12 (R75). -/
theorem thrEncodeNat_of_lt (hv : v.toNat < 2 ^ 27) :
    thrEncodeNat v = (bitlen v.toNat - 12, v.toNat / 2 ^ (bitlen v.toNat - 12)) := by
  have hb : bitlen v.toNat ≤ 27 := bitlen_le_iff.mpr hv
  obtain ⟨fuel, hfuel⟩ := Nat.exists_eq_add_of_le' (show bitlen v.toNat - 12 ≤ 15 by omega)
  have hm := div_two_pow_bitlen_le v.toNat
  rw [thrEncodeNat, hfuel, thrNormalize_turns fuel (by omega) le_rfl, thrNormalize_of_le _ _ hm, thrSaturate,
    if_neg (not_lt.mpr hm), zero_add]

/-- From `2 ^ 27` on the mantissa is still too large after all 15 turns (R75). -/
theorem thrEncodeNat_of_le (hv : 2 ^ 27 ≤ v.toNat) : thrEncodeNat v = (7, 4095) := by
  have hb : 27 < bitlen v.toNat := lt_bitlen_iff.mpr hv
  have hturns : thrNormalize 15 0 v.toNat = (15, v.toNat / 2 ^ 15) := thrNormalize_turns (d := 15) 0 le_rfl (by omega)
  rw [thrEncodeNat, hturns, thrSaturate, if_pos]
  show 4095 < v.toNat / 2 ^ 15
  omega

end Encoder

/-- Settles O40: by the number of turns of the loop, which is the number of bits above 12 up to the 15 turns it can make. -/
theorem thresholdEncoderClosedForm : Obligations.ThresholdEncoderClosedForm := by
  refine fun v => ⟨fun hv => ?_, fun hlow hhigh => ?_, fun hv => ?_⟩
  · have hb : bitlen v.toNat ≤ 12 := bitlen_le_iff.mpr (Nat.lt_succ_of_le hv)
    refine ⟨hb, ?_⟩
    rw [thrEncodeNat_of_lt (by omega), Nat.sub_eq_zero_of_le hb, pow_zero, Nat.div_one]
  · exact ⟨lt_bitlen_iff.mpr hlow, bitlen_le_iff.mpr hhigh, thrEncodeNat_of_lt hhigh,
      (Nat.le_div_iff_mul_le (Nat.two_pow_pos _)).mpr (mul_two_pow_bitlen_le hlow), div_two_pow_bitlen_le _⟩
  · exact ⟨lt_bitlen_iff.mpr hv, bitlen_le_iff.mpr v.isLt, thrEncodeNat_of_le hv⟩

/-! ### THR_ENC -/

/-- The loop computes the closed form (R75). -/
theorem thrEncodeNat_eq_closed (v : ThrValue) : thrEncodeNat v = thrEncodeClosed v := by
  obtain ⟨hsmall, hmiddle, hlarge⟩ := thresholdEncoderClosedForm v
  rcases Nat.lt_or_ge 4095 v.toNat with hlow | hlow
  · rcases Nat.lt_or_ge v.toNat (2 ^ 27) with hhigh | hhigh
    · obtain ⟨hb13, hb27, henc, -⟩ := hmiddle hlow hhigh
      rw [thrEncodeClosed, henc, if_neg (by omega), if_pos hb27]
    · obtain ⟨hb28, -, henc⟩ := hlarge hhigh
      rw [thrEncodeClosed, henc, if_neg (by omega), if_neg (by omega)]
  · obtain ⟨hb12, henc⟩ := hsmall hlow
    rw [thrEncodeClosed, henc, if_pos hb12]

/-- The encoder's numbers fit their fields (R72). -/
theorem thrEncodeNat_le (v : ThrValue) : (thrEncodeNat v).1 ≤ 15 ∧ (thrEncodeNat v).2 ≤ 4095 := by
  rcases Nat.lt_or_ge v.toNat (2 ^ 27) with hv | hv
  · have hb : bitlen v.toNat ≤ 27 := bitlen_le_iff.mpr hv
    rw [thrEncodeNat_of_lt hv]
    exact ⟨show bitlen v.toNat - 12 ≤ 15 by omega, div_two_pow_bitlen_le _⟩
  · rw [thrEncodeNat_of_le hv]
    decide

theorem toNat_thrExponent (v : ThrValue) : (thrExponent v).toNat = (thrEncodeNat v).1 :=
  Nat.mod_eq_of_lt (Nat.lt_succ_of_le (thrEncodeNat_le v).1)

theorem toNat_thrMantissa (v : ThrValue) : (thrMantissa v).toNat = (thrEncodeNat v).2 :=
  Nat.mod_eq_of_lt (Nat.lt_succ_of_le (thrEncodeNat_le v).2)

/-- Settles O41: the word is PACK of the two fields, and the fields hold the closed form's numbers. -/
theorem thrEncResult : Obligations.ThrEncResult := by
  refine ⟨fun r hop => decode_eq_of_agreesAt hop (by simp [Instr.operands, encode, Request.int]), fun v s => ?_⟩
  obtain ⟨hexp, hman⟩ := thrEncodeNat_le v
  refine ⟨hexp, hman, ?_⟩
  rw [← thrEncodeNat_eq_closed, ← toNat_thrExponent, ← toNat_thrMantissa, ← pack_eq_ofNat, BitVec.ofNat_toNat,
    BitVec.ofNat_toNat, BitVec.setWidth_eq, BitVec.setWidth_eq]
  rfl

/-! ### THR_DEC -/

theorem narrow_eq_ofNat (narrow32 : Bool) (full : Code) :
    narrow narrow32 full = BitVec.ofNat 35 (if narrow32 then full.toNat % 2 ^ 32 else full.toNat) := by
  rw [← narrow_true_toNat, ← apply_ite BitVec.toNat, BitVec.ofNat_toNat, BitVec.setWidth_eq]
  cases narrow32 <;> rfl

theorem thrDecode_eq_ofNat (narrow32 : Bool) (e : Exponent) (m12 : ThrMantissa) :
    thrDecode narrow32 e m12 =
      BitVec.ofNat 35
        (if narrow32 then m12.toNat * 2 ^ (8 + e.toNat) % 2 ^ 32 else m12.toNat * 2 ^ (8 + e.toNat)) := by
  rw [thrDecode, narrow_eq_ofNat, toNat_setWidth_shiftLeft m12 (by omega)]

theorem toNat_thrDecode_false (e : Exponent) (m12 : ThrMantissa) :
    (thrDecode false e m12).toNat = m12.toNat * 2 ^ (8 + e.toNat) :=
  toNat_setWidth_shiftLeft m12 (by omega)

theorem toNat_unpackExponent (word : RegWord) : (unpackExponent word).toNat = word.toNat / 2 ^ 12 := by
  rw [unpackExponent_eq_ofNat, BitVec.toNat_ofNat, Nat.mod_eq_of_lt (by omega)]

theorem toNat_unpackMantissa (word : RegWord) : (unpackMantissa word).toNat = word.toNat % 2 ^ 12 := by
  rw [unpackMantissa_eq_ofNat, BitVec.toNat_ofNat, Nat.mod_mod]

/-- Settles O42: the two parts of the word, the mantissa scaled with the decoder's bias of 8. -/
theorem thrDecResult : Obligations.ThrDecResult := by
  refine ⟨fun r hop => decode_eq_of_agreesAt hop (by simp [Instr.operands, encode, Request.int]), fun word s => ?_⟩
  rw [← toNat_unpackExponent, ← toNat_unpackMantissa, ← thrDecode_eq_ofNat, ← toNat_thrDecode_false]
  exact ⟨(thrDecode false _ _).isLt, rfl⟩

/-! ### Decoding an encoded threshold -/

/-- The decoder scales the encoder's mantissa with a bias that the encoder does not take off (R77, C1). -/
theorem toNat_thrDecode_encoded (v : ThrValue) :
    (thrDecode false (thrExponent v) (thrMantissa v)).toNat = (thrEncodeNat v).2 * 2 ^ (8 + (thrEncodeNat v).1) := by
  rw [toNat_thrDecode_false, toNat_thrExponent, toNat_thrMantissa]

section Decoding
variable {v : ThrValue}

theorem toNat_thrDecode_encoded_of_lt (hv : v.toNat < 2 ^ 27) :
    (thrDecode false (thrExponent v) (thrMantissa v)).toNat =
      2 ^ 8 * (v.toNat / 2 ^ (thrEncodeNat v).1 * 2 ^ (thrEncodeNat v).1) := by
  have henc := thrEncodeNat_of_lt hv
  rw [toNat_thrDecode_encoded, pow_add, mul_left_comm, henc]

/-- Truncation takes less than half of a value. -/
theorem lt_two_mul_truncated {n p : Nat} (hp : 0 < p) (h : p ≤ n) : n < 2 * (n / p * p) := by
  have hloss : n < n / p * p + p := Nat.lt_div_mul_add hp
  have hkept : p ≤ n / p * p := Nat.le_mul_of_pos_left p (Nat.div_pos h hp)
  omega

theorem lt_thrDecode_encoded (hv : v.toNat < 2 ^ 27) (hpos : 1 ≤ v.toNat) :
    v.toNat < (thrDecode false (thrExponent v) (thrMantissa v)).toNat := by
  have hp : 2 ^ (thrEncodeNat v).1 ≤ v.toNat := by
    rw [thrEncodeNat_of_lt hv]
    exact two_pow_bitlen_le hpos
  have := lt_two_mul_truncated (Nat.two_pow_pos _) hp
  rw [toNat_thrDecode_encoded_of_lt hv]
  omega

theorem thrDecode_encoded_eq_iff (hv : v.toNat < 2 ^ 27) :
    (thrDecode false (thrExponent v) (thrMantissa v)).toNat = 256 * v.toNat ↔
      v.toNat % 2 ^ (thrEncodeNat v).1 = 0 := by
  have := Nat.div_add_mod' v.toNat (2 ^ (thrEncodeNat v).1)
  rw [toNat_thrDecode_encoded_of_lt hv]
  omega

theorem toNat_thrDecode_encoded_of_le (hv : 2 ^ 27 ≤ v.toNat) :
    (thrDecode false (thrExponent v) (thrMantissa v)).toNat = 134184960 := by
  rw [toNat_thrDecode_encoded, thrEncodeNat_of_le hv]
  rfl

/-- A decoded value has at most 12 bits above the `8 + e` zeros it ends in, so that encoding it truncates nothing (R77). -/
theorem thrDecode_encoded_of_decoded {e : Exponent} {m12 : ThrMantissa} (hdec : (thrDecode false e m12).toNat = v.toNat)
    (hv : v.toNat < 2 ^ 27) : (thrDecode false (thrExponent v) (thrMantissa v)).toNat = 256 * v.toNat := by
  rw [toNat_thrDecode_false] at hdec
  have hb : bitlen v.toNat ≤ 12 + (8 + e.toNat) := bitlen_le_iff.mpr (hdec ▸ toNat_mul_two_pow_lt m12 _)
  have hexp : (thrEncodeNat v).1 ≤ 8 + e.toNat := by
    rw [thrEncodeNat_of_lt hv]
    exact Nat.sub_le_iff_le_add'.mpr hb
  rw [thrDecode_encoded_eq_iff hv, ← hdec]
  exact Nat.mod_eq_zero_of_dvd ((pow_dvd_pow 2 hexp).mul_left _)

end Decoding

/-- Settles O43: below `2 ^ 27` decoding scales the truncated value, and from there on it gives the saturation value. -/
theorem decodingAnEncodedThreshold : Obligations.DecodingAnEncodedThreshold := by
  refine ⟨fun v => ⟨fun hv => ?_, fun hlow hhigh => ?_, fun hv => ?_⟩, fun word d => thrDecode_encoded_of_decoded⟩
  · exact ⟨toNat_thrDecode_encoded_of_lt hv, lt_thrDecode_encoded hv, thrDecode_encoded_eq_iff hv⟩
  · refine ⟨Nat.lt_div_mul_add (Nat.two_pow_pos _), ?_⟩
    rw [thrEncodeNat_of_lt hhigh]
    exact mul_two_pow_bitlen_le hlow
  · rw [toNat_thrDecode_encoded_of_le hv]
    exact ⟨rfl, hv.trans_lt' (by decide)⟩

end Sys2Proof
end

section
/-! The colorimetry family of the obligations (spec file 45): MATMUL, COLOR and CCT in binary64 (O44 to O47), the numbers and
constants that are exact in it (O48, O49), the denominator of CCT and its finite results (O51, O52), and the same operations over
the reals (O53 to O55). -/

namespace Sys2Proof

open Sys2Proof.Machine Sys2Proof.Safety

/-! ### The transform and the chromaticity -/

/-- Settles O44: the model's transform is these sums, and latching them is all the instruction does. -/
theorem matmulResult : Obligations.MatmulResult :=
  ⟨fun r hop => decode_eq_of_agreesAt hop (by simp [Instr.operands, encode, Request.int]), fun _ _ => rfl⟩

theorem exec_matmul (ch : Quad Code) (s : State) :
    exec (.matmul ch) s = .next { s with rsp := matmulResponse s.params ch } := rfl

theorem exec_color (ch : Quad Code) (s : State) :
    exec (.color ch) s = .next { s with rsp := colorResponse s.params ch } := rfl

theorem exec_cct (cx cy : Fp64) (s : State) :
    exec (.cct cx cy) s = .next { s with rsp := cctResponse s.params cx cy } := rfl

section AnyFormat
variable {α : Type} (P : Params α)

theorem colorResponse_of_gt {ch : Quad Code} (h : P.fp.fgt (colorSum P.fp (matmul P.fp P.matrix ch)) P.fp.zero = true) :
    colorResponse P ch =
      { okResponse P with
        cx := P.fp.fdiv (matmul P.fp P.matrix ch).x (colorSum P.fp (matmul P.fp P.matrix ch)),
        cy := P.fp.fdiv (matmul P.fp P.matrix ch).y (colorSum P.fp (matmul P.fp P.matrix ch)),
        lux := (matmul P.fp P.matrix ch).l, valid := true } :=
  if_pos h

theorem colorResponse_of_not_gt {ch : Quad Code}
    (h : P.fp.fgt (colorSum P.fp (matmul P.fp P.matrix ch)) P.fp.zero = false) :
    colorResponse P ch = errorResponse P statusDegenerateSum :=
  if_neg (Bool.eq_false_iff.mp h)

/-- The inputs for which CCT has no temperature (R82). -/
def ChromaUndefined (F : Fp α) (cx cy : α) : Prop :=
  bothZero F cx cy = true ∨ (F.finite cx = false ∨ F.finite cy = false) ∨ F.feq (cctDenominator F cy) F.zero = true

theorem cctResponse_of_undefined {cx cy : α} (h : ChromaUndefined P.fp cx cy) :
    cctResponse P cx cy = errorResponse P statusUndefChroma := by
  unfold cctResponse
  rcases h with hzero | hfinite | hden
  · rw [if_pos hzero]
  · have hsome : (!P.fp.finite cx || !P.fp.finite cy) = true := by simpa using hfinite
    rw [if_pos hsome, ite_self]
  · rw [if_pos hden, ite_self, ite_self]

theorem cctResponse_of_defined {cx cy : α} (h : ¬ChromaUndefined P.fp cx cy) :
    cctResponse P cx cy = { okResponse P with cct := mcCamyCubic P.fp (cctRatio P.fp cx cy) } := by
  obtain ⟨hzero, hfinite, hden⟩ : _ ∧ _ ∧ _ := by simpa [ChromaUndefined] using h
  simp [cctResponse, hzero, hfinite, hden]

end AnyFormat

/-- Settles O45: COLOR latches one of its two responses, by the comparison of the sum that MATMUL's latch gives. -/
theorem colorResult : Obligations.ColorResult := by
  refine ⟨fun r hop => decode_eq_of_agreesAt hop (by simp [Instr.operands, encode, Request.int]), fun ch s t h => ?_⟩
  obtain rfl : { s with rsp := matmulResponse s.params ch } = t :=
    Host.Outcome.next.inj ((exec_matmul ch s).symm.trans h)
  refine ⟨fun hsum => ?_, fun hsum => ?_⟩
  · rw [exec_color, colorResponse_of_gt s.params hsum]
    rfl
  · rw [exec_color, colorResponse_of_not_gt s.params hsum]
    rfl

theorem exec_cct_of_undefined {cx cy : Fp64} (s : State) (h : ChromaUndefined Fp.binary64 cx cy) :
    exec (.cct cx cy) s = .next { s with rsp := { blankResponse Fp64.posZero with status := statusUndefChroma } } := by
  rw [exec_cct, cctResponse_of_undefined s.params h, errorResponse_binary64]

/-- Settles O46: the three sentinel clauses are the three ways of having no temperature, which the last excludes. -/
theorem cctResult : Obligations.CctResult := by
  refine ⟨fun r hop => decode_eq_of_agreesAt hop (by simp [Instr.operands, encode, Request.fp]), fun cx cy s => ?_⟩
  refine ⟨fun hx hy => exec_cct_of_undefined s (.inl (Bool.and_eq_true_iff.mpr ⟨hx, hy⟩)),
    fun hfinite => exec_cct_of_undefined s (.inr (.inl hfinite)),
    fun hden => exec_cct_of_undefined s (.inr (.inr hden)), fun hzero hx hy hden => ?_⟩
  have hdefined : ¬ChromaUndefined Fp.binary64 cx cy := by
    rintro (h | (h | h) | h)
    · exact hzero (Bool.and_eq_true_iff.mp h)
    · exact Bool.noConfusion (hx.symm.trans h)
    · exact Bool.noConfusion (hy.symm.trans h)
    · exact Bool.noConfusion (hden.symm.trans h)
  rw [exec_cct, cctResponse_of_defined s.params hdefined]
  rfl

/-! ### Zero codes -/

/-- What the sums of COLOR are made of when all codes are zero: a zero of either sign or a NaN. -/
def ZeroOrNaN (a : Fp64) : Prop := a = .nan ∨ ∃ neg, a = .finite neg 0 0

theorem zeroOrNaN_add {a b : Fp64} (ha : ZeroOrNaN a) (hb : ZeroOrNaN b) : ZeroOrNaN (a.add b) := by
  rcases ha with rfl | ⟨s, rfl⟩
  · exact .inl rfl
  rcases hb with rfl | ⟨t, rfl⟩
  · exact .inl rfl
  · exact .inr ⟨s && t, by cases s <;> cases t <;> rfl⟩

theorem magnitude_zero : Fp64.magnitude 0 0 = 0 := rfl

theorem ofNat_zero : Fp64.ofNat 0 = .finite false 0 0 := by
  rw [Fp64.ofNat, mul_zero, Fp64.roundScaled]

/-- Zero times an infinity is a NaN, which is how a matrix that is not finite shows (D18). -/
theorem zeroOrNaN_ofNat_zero_mul (a : Fp64) : ZeroOrNaN ((Fp64.ofNat 0).mul a) := by
  rw [ofNat_zero]
  cases a with
  | nan => exact .inl rfl
  | inf t => exact .inl rfl
  | finite t g h =>
    refine .inr ⟨false ^^ t, ?_⟩
    rw [Fp64.mul, magnitude_zero, zero_mul, Fp64.roundScaled]

theorem gt_posZero_of_zeroOrNaN {a : Fp64} (ha : ZeroOrNaN a) : a.gt Fp64.posZero = false := by
  rcases ha with rfl | ⟨s, rfl⟩
  · rfl
  · cases s <;> rfl

theorem zeroOrNaN_weightedSum (w : Quad Fp64) :
    ZeroOrNaN (weightedSum Fp.binary64 (codeValues Fp.binary64 ⟨0, 0, 0, 0⟩) w) :=
  zeroOrNaN_add (zeroOrNaN_add (zeroOrNaN_add (zeroOrNaN_ofNat_zero_mul _) (zeroOrNaN_ofNat_zero_mul _))
    (zeroOrNaN_ofNat_zero_mul _)) (zeroOrNaN_ofNat_zero_mul _)

/-- Settles O47: every product is a zero or a NaN, so the sum is one, and neither is above 0. -/
theorem zeroCodesAreDegenerate : Obligations.ZeroCodesAreDegenerate := by
  intro s
  have hsum : ZeroOrNaN (colorSum Fp.binary64 (matmul Fp.binary64 s.build.matrix ⟨0, 0, 0, 0⟩)) :=
    zeroOrNaN_add (zeroOrNaN_add (zeroOrNaN_weightedSum _) (zeroOrNaN_weightedSum _)) (zeroOrNaN_weightedSum _)
  rw [exec_color, colorResponse_of_not_gt s.params (gt_posZero_of_zeroOrNaN hsum)]
  rfl

/-! ### Numbers that binary64 represents -/

/-- A whole number of least units with at most 53 significant bits is rounded to itself. -/
theorem roundScaled_representable {neg : Bool} {d sig place : Nat} (hd : 0 < d) (hsig : sig < 2 ^ 53)
    (hlt : sig * 2 ^ place < 2 ^ 2098) :
    ∃ e f, Fp64.roundScaled neg (d * (sig * 2 ^ place)) d = .finite neg e f ∧ Fp64.magnitude e f = sig * 2 ^ place := by
  obtain ⟨hlo, -⟩ := shiftOf_bounds (n := d * (sig * 2 ^ place)) hd
  obtain ⟨shift, _, hshift, rfl, -, -, hcases⟩ := roundScaled_cases neg (n := d * (sig * 2 ^ place)) hd
  rw [← hshift] at hlo
  have hle : shift ≤ place := by
    rcases hlo with h0 | hlo
    · omega
    by_contra hgt
    have hbinade : 2 ^ shift * 2 ^ 52 ≤ sig * 2 ^ place := by
      rw [mul_assoc] at hlo
      exact Nat.le_of_mul_le_mul_left hlo hd
    have hplace : 2 ^ (place + 1) ≤ 2 ^ shift := Nat.pow_le_pow_right two_pos (by omega)
    have hsmall : sig * 2 ^ place < 2 ^ 53 * 2 ^ place := Nat.mul_lt_mul_of_pos_right hsig (Nat.two_pow_pos place)
    rw [pow_succ] at hplace
    omega
  obtain ⟨k, rfl⟩ := Nat.exists_eq_add_of_le hle
  have hexact : nearestEven (d * (sig * 2 ^ (shift + k))) (d * 2 ^ shift) * 2 ^ shift = sig * 2 ^ (shift + k) := by
    rw [show d * (sig * 2 ^ (shift + k)) = d * 2 ^ shift * (sig * 2 ^ k) by ring,
      nearestEven_exact (Nat.mul_pos hd (Nat.two_pow_pos shift))]
    ring
  rw [hexact] at hcases
  exact hcases.resolve_right fun h => absurd h.2 (not_le.mpr hlt)

/-- A natural number with at most 53 significant bits enters binary64 without rounding. -/
theorem value?_ofNat {sig place : Nat} (hsig : sig < 2 ^ 53) (hplace : place ≤ 971) :
    (Fp64.ofNat (sig * 2 ^ place)).value? = some ((sig * 2 ^ place : Nat) : Rat) := by
  have hlt : sig * 2 ^ (1074 + place) < 2 ^ 2098 := by
    have hpow : 2 ^ (53 + (1074 + place)) ≤ 2 ^ 2098 := pow_le_pow_right₀ one_le_two (by omega)
    exact (Nat.mul_lt_mul_of_pos_right hsig (Nat.two_pow_pos _)).trans_le ((pow_add 2 53 _).symm.trans_le hpow)
  obtain ⟨e, f, hround, hmag⟩ := roundScaled_representable (neg := false) one_pos hsig hlt
  refine value?_eq_some_iff.mpr ⟨false, e, f, ?_, ?_⟩
  · rw [← hround, Fp64.ofNat, one_mul, pow2_eq, pow_add, mul_left_comm]
  · rw [scaled_false, hmag, pow_add, ← pow2_eq 1074, pow2_1074_eq]
    push_cast
    ring

/-- Settles O48: below 2^53 the number is its own significand, and 2^53 is a power of two. -/
theorem smallNaturalsAreExact : Obligations.SmallNaturalsAreExact := by
  have hexact : ∀ n : Nat, n ≤ 2 ^ 53 → (Fp64.ofNat n).value? = some (n : Rat) := by
    intro n hn
    rcases hn.lt_or_eq with hlt | rfl
    · simpa using value?_ofNat (place := 0) hlt (by decide)
    · simpa using value?_ofNat (sig := 1) (place := 53) (by decide) (by decide)
  exact ⟨hexact, fun c => hexact c.toNat (by omega)⟩

/-- What binary64 makes of 0.1858 (R83): its last place is 2^-55. -/
def mcCamyYValue : Rat := 6694150486123505 / 2 ^ 55

theorem value?_mcCamyX : (Fp64.ofDec 3320 4).value? = some (5980780305148019 / 2 ^ 54) := by decide +kernel

theorem value?_mcCamyY : (Fp64.ofDec 1858 4).value? = some mcCamyYValue := by decide +kernel

theorem mcCamyYValue_ne_zero : mcCamyYValue ≠ 0 := by norm_num [mcCamyYValue]

/-- Settles O49: the decimals by evaluation, the coefficients as small naturals. -/
theorem cctConstantsInBinary64 : Obligations.CctConstantsInBinary64 :=
  ⟨value?_mcCamyX, value?_mcCamyY, smallNaturalsAreExact.1 437 (by decide), smallNaturalsAreExact.1 3601 (by decide),
    smallNaturalsAreExact.1 6861 (by decide), smallNaturalsAreExact.1 5517 (by decide)⟩

/-! ### Comparisons and the numbers of data -/

section Values
variable {a b : Fp64} {x y : Rat}

theorem le_iff_value_le (ha : a.value? = some x) (hb : b.value? = some y) : a.le b = true ↔ x ≤ y := by
  obtain ⟨s, e, f, rfl, hx⟩ := value?_eq_some_iff.mp ha
  obtain ⟨t, g, k, rfl, hy⟩ := value?_eq_some_iff.mp hb
  rw [Fp64.le, decide_eq_true_iff, ← mul_le_mul_iff_left₀ unitsPerOne_cast_pos, hx, hy, Int.cast_le]

theorem eq_iff_value_eq (ha : a.value? = some x) (hb : b.value? = some y) : a.eq b = true ↔ x = y := by
  rw [Fp64.eq, Bool.and_eq_true_iff, le_iff_value_le ha hb, le_iff_value_le hb ha, le_antisymm_iff]

theorem exists_value_of_isFinite (h : a.isFinite = true) : ∃ x, a.value? = some x := by
  cases a with
  | nan => cases h
  | inf => cases h
  | finite => exact ⟨_, rfl⟩

theorem isFinite_of_value (h : a.value? = some x) : a.isFinite = true := by
  obtain ⟨s, e, f, rfl, -⟩ := value?_eq_some_iff.mp h
  rfl

/-- Neither an infinity nor a NaN lies between two finite data. -/
theorem exists_value_of_le_of_le {c : Fp64} (hb : b.isFinite = true) (hc : c.isFinite = true) (hle : a.le c = true)
    (hge : b.le a = true) : ∃ x, a.value? = some x := by
  obtain ⟨y, hy⟩ := exists_value_of_isFinite hb
  obtain ⟨z, hz⟩ := exists_value_of_isFinite hc
  obtain ⟨_, _, _, rfl, -⟩ := value?_eq_some_iff.mp hy
  obtain ⟨_, _, _, rfl, -⟩ := value?_eq_some_iff.mp hz
  cases a with
  | nan => cases hle
  | inf s =>
    have hneg : s = true := hle
    have hpos : (!s) = true := hge
    simp [hneg] at hpos
  | finite => exact ⟨_, rfl⟩

end Values

/-- Magnitudes grow with the exponent: the next binade begins where one ends. -/
theorem magnitude_lt_of_exp_lt {e g : Fin 2047} (h : e < g) (f k : BitVec 52) : Fp64.magnitude e f < Fp64.magnitude g k := by
  have hbelow : Fp64.magnitude e f < 2 ^ 52 * 2 ^ e.val := by
    rw [Fp64.magnitude, pow2_eq, mul_comm, Fp64.significand]
    have hf := f.isLt
    split
    · next h0 => simpa [h0] using hf
    · next h0 =>
      obtain ⟨n, hn⟩ := Nat.exists_eq_succ_of_ne_zero h0
      rw [hn, Nat.succ_sub_one, pow_succ' 2 n, mul_left_comm, ← mul_assoc]
      exact Nat.mul_lt_mul_of_pos_right (by omega) (Nat.two_pow_pos n)
  have hg : g.val ≠ 0 := by omega
  calc Fp64.magnitude e f < 2 ^ 52 * 2 ^ e.val := hbelow
    _ ≤ 2 ^ 52 * 2 ^ (g.val - 1) := Nat.mul_le_mul_left _ (Nat.pow_le_pow_right two_pos (by omega))
    _ ≤ Fp64.magnitude g k := by
      rw [Fp64.magnitude, pow2_eq, mul_comm, Fp64.significand, if_neg hg]
      exact Nat.mul_le_mul_left _ (Nat.le_add_right _ _)

theorem magnitude_injective {e g : Fin 2047} {f k : BitVec 52} (h : Fp64.magnitude e f = Fp64.magnitude g k) :
    e = g ∧ f = k := by
  rcases lt_trichotomy e g with hlt | rfl | hlt
  · exact absurd h (magnitude_lt_of_exp_lt hlt f k).ne
  · rw [Fp64.magnitude, Fp64.magnitude, pow2_eq] at h
    have hsig := Nat.eq_of_mul_eq_mul_left (Nat.two_pow_pos _) h
    unfold Fp64.significand at hsig
    refine ⟨rfl, BitVec.eq_of_toNat_eq ?_⟩
    split at hsig <;> omega
  · exact absurd h (magnitude_lt_of_exp_lt hlt k f).ne'

theorem scaled_neg_iff {s : Bool} {e : Fin 2047} {f : BitVec 52} (h : 0 < Fp64.magnitude e f) :
    Fp64.scaled s e f < 0 ↔ s = true := by
  cases s
  · simp
  · simpa [Fp64.scaled] using h

/-- A number other than zero is that of one datum at most. -/
theorem eq_of_value_eq {a b : Fp64} {x : Rat} (ha : a.value? = some x) (hb : b.value? = some x) (hx : x ≠ 0) : a = b := by
  obtain ⟨s, e, f, rfl, hs⟩ := value?_eq_some_iff.mp ha
  obtain ⟨t, g, k, rfl, ht⟩ := value?_eq_some_iff.mp hb
  have hpos : 0 < Fp64.magnitude e f := Nat.pos_of_ne_zero (magnitude_ne_zero_of_value_ne_zero hs hx)
  have hpos' : 0 < Fp64.magnitude g k := Nat.pos_of_ne_zero (magnitude_ne_zero_of_value_ne_zero ht hx)
  have hscaled : Fp64.scaled s e f = Fp64.scaled t g k := by exact_mod_cast hs.symm.trans ht
  obtain rfl : s = t := by rw [Bool.eq_iff_iff, ← scaled_neg_iff hpos, hscaled, scaled_neg_iff hpos']
  rw [scaled_eq_signFactor_mul, scaled_eq_signFactor_mul, mul_right_inj' (signFactor_ne_zero s), Nat.cast_inj] at hscaled
  obtain ⟨rfl, rfl⟩ := magnitude_injective hscaled
  rfl

/-! ### Rounding is monotone against represented numbers -/

section Rounded
variable {q v u : Rat} {r w : Fp64}

theorem exists_value_of_correctlyRounded (h : CorrectlyRounded q r) (hq : |q| < overflowBound) :
    ∃ v, r.value? = some v := by
  cases r with
  | nan => exact h.elim
  | inf => exact absurd h.1 (not_le.mpr hq)
  | finite => exact ⟨_, rfl⟩

theorem correctlyRounded_nearest (h : CorrectlyRounded q r) (hv : r.value? = some v) (hu : w.value? = some u) :
    |v - q| ≤ |u - q| := by
  obtain ⟨s, e, f, rfl, -⟩ := value?_eq_some_iff.mp hv
  exact (h.2 v hv w u hu).1

theorem rounded_le_of_le (h : CorrectlyRounded q r) (hv : r.value? = some v) (hu : w.value? = some u) (hq : q ≤ u) :
    v ≤ u := by
  have hnear := correctlyRounded_nearest h hv hu
  rw [abs_of_nonneg (sub_nonneg.mpr hq)] at hnear
  linarith [le_abs_self (v - q)]

theorem le_rounded_of_le (h : CorrectlyRounded q r) (hv : r.value? = some v) (hu : w.value? = some u) (hq : u ≤ q) :
    u ≤ v := by
  have hnear := correctlyRounded_nearest h hv hu
  rw [abs_of_nonpos (sub_nonpos.mpr hq)] at hnear
  linarith [neg_abs_le (v - q)]

end Rounded

theorem sub_correctlyRounded {a b : Fp64} {x y : Rat} (ha : a.value? = some x) (hb : b.value? = some y) :
    CorrectlyRounded (x - y) (a.sub b) := by
  rw [sub_eq_add_neg]
  exact add_correctlyRounded ha (value?_neg hb)

/-! ### Bounds of powers of two -/

/-- A finite datum between -2^k and 2^k. -/
def AbsLePow2 (k : Nat) (a : Fp64) : Prop := ∃ x, a.value? = some x ∧ |x| ≤ 2 ^ k

theorem pow2_lt_overflowBound {k : Nat} (hk : k < 1024) : (2 : Rat) ^ k < overflowBound := by
  calc (2 : Rat) ^ k ≤ 2 ^ 1023 := pow_le_pow_right₀ one_le_two (by omega)
    _ = 2 ^ 53 * 2 ^ 970 := by rw [← pow_add]
    _ < overflowBound := mul_lt_mul_of_pos_right (by norm_num) (pow_pos two_pos _)

theorem value?_ofNat_pow2 {k : Nat} (hk : k ≤ 971) : (Fp64.ofNat (2 ^ k)).value? = some (2 ^ k) := by
  simpa using value?_ofNat (sig := 1) (by decide) hk

/-- Rounding keeps the bounds. -/
theorem absLePow2_of_correctlyRounded {q : Rat} {r : Fp64} {k : Nat} (hk : k ≤ 971) (h : CorrectlyRounded q r)
    (hq : |q| ≤ 2 ^ k) : AbsLePow2 k r := by
  have hpow := value?_ofNat_pow2 hk
  obtain ⟨v, hv⟩ := exists_value_of_correctlyRounded h (hq.trans_lt (pow2_lt_overflowBound (by omega)))
  obtain ⟨hlow, hhigh⟩ := abs_le.mp hq
  exact ⟨v, hv, abs_le.mpr ⟨le_rounded_of_le h hv (value?_neg hpow) hlow, rounded_le_of_le h hv hpow hhigh⟩⟩

section Bounds
variable {a b : Fp64} {j k : Nat}

theorem isFinite_of_absLePow2 (ha : AbsLePow2 k a) : a.isFinite = true := by
  obtain ⟨x, hx, -⟩ := ha
  exact isFinite_of_value hx

theorem absLePow2_ofNat {n : Nat} (hk : k ≤ 53) (hn : n ≤ 2 ^ k) : AbsLePow2 k (Fp64.ofNat n) := by
  refine ⟨n, smallNaturalsAreExact.1 n (hn.trans (Nat.pow_le_pow_right two_pos hk)), ?_⟩
  rw [Nat.abs_cast]
  exact_mod_cast hn

theorem absLePow2_add (hj : j < 971) (hkj : k ≤ j) (ha : AbsLePow2 j a) (hb : AbsLePow2 k b) :
    AbsLePow2 (j + 1) (a.add b) := by
  obtain ⟨x, hx, hxj⟩ := ha
  obtain ⟨y, hy, hyk⟩ := hb
  refine absLePow2_of_correctlyRounded hj (add_correctlyRounded hx hy) ?_
  calc |x + y| ≤ |x| + |y| := abs_add_le x y
    _ ≤ 2 ^ j + 2 ^ j := add_le_add hxj (hyk.trans (pow_le_pow_right₀ one_le_two hkj))
    _ = 2 ^ (j + 1) := by ring

theorem absLePow2_mul (hjk : j + k ≤ 971) (ha : AbsLePow2 j a) (hb : AbsLePow2 k b) : AbsLePow2 (j + k) (a.mul b) := by
  obtain ⟨x, hx, hxj⟩ := ha
  obtain ⟨y, hy, hyk⟩ := hb
  refine absLePow2_of_correctlyRounded hjk (mul_correctlyRounded hx hy) ?_
  rw [abs_mul, pow_add]
  exact mul_le_mul hxj hyk (abs_nonneg y) (pow_nonneg zero_le_two j)

theorem absLePow2_neg (ha : AbsLePow2 k a) : AbsLePow2 k a.neg := by
  obtain ⟨x, hx, hxk⟩ := ha
  exact ⟨-x, value?_neg hx, (abs_neg x).trans_le hxk⟩

end Bounds

/-! ### The denominator of CCT -/

theorem abs_value_mul_unitsPerOne {s : Bool} {e : Fin 2047} {f : BitVec 52} {x : Rat}
    (hx : x * unitsPerOne = Fp64.scaled s e f) : |x| * unitsPerOne = Fp64.magnitude e f := by
  rw [← abs_of_pos unitsPerOne_cast_pos, ← abs_mul, hx, scaled_eq_signFactor_mul]
  cases s <;> simp

theorem unitsPerOne_eq_pow_mul_pow : (unitsPerOne : Rat) = 2 ^ 55 * 2 ^ 1019 := by
  rw [← two_pow_1074_eq, ← pow_add]

/-- A datum of magnitude 1/8 or more is a whole number of the last places of 0.1858. -/
theorem exists_int_of_eighth_le {a : Fp64} {x : Rat} (ha : a.value? = some x) (hx : 1 / 8 ≤ |x|) :
    ∃ j : Int, x * 2 ^ 55 = j := by
  obtain ⟨s, e, f, rfl, hs⟩ := value?_eq_some_iff.mp ha
  obtain ⟨sig, place, hsig, hmag⟩ := magnitude_form e f
  have hlast : (0 : Rat) < 2 ^ 1019 := pow_pos two_pos _
  have hplace : 1019 ≤ place := by
    by_contra hlt
    have hsmall : (sig * 2 ^ place : Rat) < 2 ^ 52 * 2 ^ 1019 := by
      calc (sig * 2 ^ place : Rat)
          < 2 ^ 53 * 2 ^ place := mul_lt_mul_of_pos_right (by exact_mod_cast hsig) (pow_pos two_pos _)
        _ = 2 ^ 52 * 2 ^ (place + 1) := by ring
        _ ≤ 2 ^ 52 * 2 ^ 1019 :=
          mul_le_mul_of_nonneg_left (pow_le_pow_right₀ one_le_two (by omega)) (pow_nonneg zero_le_two _)
    have habs := abs_value_mul_unitsPerOne hs
    rw [hmag, unitsPerOne_eq_pow_mul_pow, ← mul_assoc] at habs
    push_cast at habs
    rw [← habs, mul_lt_mul_iff_left₀ hlast] at hsmall
    linarith
  obtain ⟨k, rfl⟩ := Nat.exists_eq_add_of_le hplace
  refine ⟨signFactor s * (sig * 2 ^ k), mul_right_cancel₀ hlast.ne' ?_⟩
  rw [mul_assoc, ← unitsPerOne_eq_pow_mul_pow, hs, scaled_eq_signFactor_mul, hmag, pow_add]
  simp only [Int.cast_mul, Int.cast_natCast, Nat.cast_mul, Nat.cast_pow, Nat.cast_ofNat, Int.cast_pow, Int.cast_ofNat]
  rw [mul_assoc, mul_assoc, mul_comm (2 ^ k)]

section Denominator
variable {cy : Fp64} {y : Rat}

/-- A datum other than 0.1858 is at least a last place of 0.1858 away from it. -/
theorem last_place_le_abs_mcCamyY_sub (hy : cy.value? = some y) (hne : y ≠ mcCamyYValue) :
    1 / 2 ^ 55 ≤ |mcCamyYValue - y| := by
  rcases lt_or_ge |y| (1 / 8) with hsmall | hlarge
  · have hgap : 1 / 8 + 1 / 2 ^ 55 ≤ mcCamyYValue := by norm_num [mcCamyYValue]
    linarith [le_abs_self y, le_abs_self (mcCamyYValue - y)]
  · obtain ⟨j, hj⟩ := exists_int_of_eighth_le hy hlarge
    have hj' : y = j / 2 ^ 55 := (eq_div_iff (pow_ne_zero 55 two_ne_zero)).mpr hj
    have hdist : 1 ≤ |6694150486123505 - j| := Int.one_le_abs fun h => hne (by rw [hj', ← sub_eq_zero.mp h]; rfl)
    rw [hj', mcCamyYValue, ← sub_div, abs_div, abs_of_pos (a := (2 : Rat) ^ 55) (pow_pos two_pos 55)]
    exact div_le_div_of_nonneg_right (by exact_mod_cast hdist) (pow_nonneg zero_le_two 55)

/-- The exact distance is kept from zero by rounding, since the last place is itself a datum. -/
theorem last_place_le_abs_denominator {v : Rat} (hy : cy.value? = some y) (hne : y ≠ mcCamyYValue)
    (hv : ((Fp64.ofDec 1858 4).sub cy).value? = some v) : 1 / 2 ^ 55 ≤ |v| := by
  have hround := sub_correctlyRounded value?_mcCamyY hy
  have hlast : (Fp64.finite false 968 0).value? = some (1 / 2 ^ 55) := by decide +kernel
  rcases le_abs.mp (last_place_le_abs_mcCamyY_sub hy hne) with hpos | hneg
  · exact le_abs.mpr (.inl (le_rounded_of_le hround hv hlast hpos))
  · exact le_abs.mpr (.inr (le_neg.mpr (rounded_le_of_le hround hv (value?_neg hlast) (le_neg.mp hneg))))

end Denominator

theorem value?_posZero : Fp64.posZero.value? = some 0 := by decide +kernel

/-- Settles O51: off the constant the rounded difference is at least a last place. -/
theorem cctDenominatorZeroOnlyAtTheConstant : Obligations.CctDenominatorZeroOnlyAtTheConstant := by
  refine fun cy hcy => ⟨fun heq => ?_, ?_⟩
  · obtain ⟨y, hy⟩ := exists_value_of_isFinite hcy
    obtain ⟨hle, hge⟩ := Bool.and_eq_true_iff.mp heq
    obtain ⟨v, hv⟩ := exists_value_of_le_of_le rfl rfl hle hge
    have hv0 : v = 0 := (eq_iff_value_eq hv value?_posZero).mp heq
    by_cases hne : y = mcCamyYValue
    · exact eq_of_value_eq (hne ▸ hy) value?_mcCamyY mcCamyYValue_ne_zero
    · have hpos := last_place_le_abs_denominator hy hne hv
      rw [hv0] at hpos
      norm_num at hpos
  · rintro rfl
    decide +kernel

/-! ### A finite temperature -/

section Bounds
variable {a b : Fp64} {j k : Nat}

theorem absLePow2_div {y : Rat} (hjk : j + k ≤ 971) (ha : AbsLePow2 j a) (hb : b.value? = some y)
    (hy : 1 / 2 ^ k ≤ |y|) : AbsLePow2 (j + k) (a.div b) := by
  obtain ⟨x, hx, hxj⟩ := ha
  have hpos : 0 < |y| := lt_of_lt_of_le (div_pos one_pos (pow_pos two_pos k)) hy
  refine absLePow2_of_correctlyRounded hjk (div_correctlyRounded hx hb (abs_pos.mp hpos)) ?_
  rw [abs_div, div_le_iff₀ hpos]
  calc |x| ≤ 2 ^ j := hxj
    _ = 2 ^ (j + k) * (1 / 2 ^ k) := by
      rw [pow_add, mul_one_div, mul_div_cancel_right₀ _ (pow_ne_zero k two_ne_zero)]
    _ ≤ 2 ^ (j + k) * |y| := mul_le_mul_of_nonneg_left hy (pow_nonneg zero_le_two _)

theorem absLePow2_div_inf (s : Bool) (ha : a.isFinite = true) : AbsLePow2 k (a.div (.inf s)) := by
  obtain ⟨x, hx⟩ := exists_value_of_isFinite ha
  obtain ⟨t, e, f, rfl, -⟩ := value?_eq_some_iff.mp hx
  refine ⟨0, value?_eq_some_iff.mpr ⟨t ^^ s, 0, 0, rfl, ?_⟩, by simp⟩
  rw [scaled_eq_signFactor_mul, magnitude_zero]
  simp

end Bounds

/-- The denominator is an infinity, under which the ratio is zero, or at least a last place of 0.1858. -/
theorem absLePow2_cctRatio {cx cy : Fp64} (hx : AbsLePow2 0 cx) (hy : cy.isFinite = true)
    (hden : (cctDenominator Fp.binary64 cy).eq Fp64.posZero = false) : AbsLePow2 56 (cctRatio Fp.binary64 cx cy) := by
  obtain ⟨y, hy'⟩ := exists_value_of_isFinite hy
  have hne : y ≠ mcCamyYValue := by
    rintro rfl
    have hcy := eq_of_value_eq hy' value?_mcCamyY mcCamyYValue_ne_zero
    exact Bool.false_ne_true (hden.symm.trans ((cctDenominatorZeroOnlyAtTheConstant cy hy).mpr hcy))
  have hxe : AbsLePow2 0 (mcCamyX Fp.binary64) := ⟨_, value?_mcCamyX, by norm_num [abs_le]⟩
  have hnum : AbsLePow2 1 (cx.sub (mcCamyX Fp.binary64)) := absLePow2_add (by decide) le_rfl hx (absLePow2_neg hxe)
  have hround := sub_correctlyRounded value?_mcCamyY hy'
  change AbsLePow2 56 ((cx.sub (mcCamyX Fp.binary64)).div ((Fp64.ofDec 1858 4).sub cy))
  cases hd : (Fp64.ofDec 1858 4).sub cy with
  | nan =>
    rw [hd] at hround
    exact hround.elim
  | inf s => exact absLePow2_div_inf s (isFinite_of_absLePow2 hnum)
  | finite s e f =>
    obtain ⟨v, hv⟩ : ∃ v, (Fp64.finite s e f).value? = some v := ⟨_, rfl⟩
    exact absLePow2_div (by decide) hnum hv (last_place_le_abs_denominator hy' hne (hd ▸ hv))

theorem absLePow2_mcCamyCubic {n : Fp64} (hn : AbsLePow2 56 n) : AbsLePow2 184 (mcCamyCubic Fp.binary64 n) := by
  have hn2 : AbsLePow2 112 (n.mul n) := absLePow2_mul (by decide) hn hn
  have hn3 : AbsLePow2 168 ((n.mul n).mul n) := absLePow2_mul (by decide) hn2 hn
  have hcoeff : ∀ c ≤ 2 ^ 13, AbsLePow2 13 (Fp64.ofNat c) := fun _ => absLePow2_ofNat (by decide)
  have h3 : AbsLePow2 181 ((Fp64.ofNat 437).mul ((n.mul n).mul n)) := absLePow2_mul (by decide) (hcoeff 437 (by decide)) hn3
  have h2 : AbsLePow2 125 ((Fp64.ofNat 3601).mul (n.mul n)) := absLePow2_mul (by decide) (hcoeff 3601 (by decide)) hn2
  have h1 : AbsLePow2 69 ((Fp64.ofNat 6861).mul n) := absLePow2_mul (by decide) (hcoeff 6861 (by decide)) hn
  exact absLePow2_add (by decide) (by decide)
    (absLePow2_add (by decide) (by decide) (absLePow2_add (by decide) (by decide) h3 h2) h1) (hcoeff 5517 (by decide))

/-- Settles O52: the ratio is at most 2^56, so that the cubic stays below 2^184, far from overflow. -/
theorem cctFiniteOnChromaticities : Obligations.CctFiniteOnChromaticities := by
  intro cx cy s t hle hge hy h
  obtain rfl : { s with rsp := cctResponse s.params cx cy } = t :=
    Host.Outcome.next.inj ((exec_cct cx cy s).symm.trans h)
  have hone : (Fp64.ofNat 1).value? = some 1 := by simpa using smallNaturalsAreExact.1 1 (by decide)
  have hmone := value?_neg hone
  obtain ⟨x, hx⟩ := exists_value_of_le_of_le (isFinite_of_value hmone) (isFinite_of_value hone) hle hge
  have hbound : |x| ≤ 1 := abs_le.mpr ⟨(le_iff_value_le hmone hx).mp hge, (le_iff_value_le hx hone).mp hle⟩
  by_cases hundef : ChromaUndefined Fp.binary64 cx cy
  · simp only [cctResponse_of_undefined s.params hundef]
    rfl
  · simp only [cctResponse_of_defined s.params hundef]
    have hden : (cctDenominator Fp.binary64 cy).eq Fp64.posZero = false :=
      Bool.eq_false_iff.mpr fun hzero => hundef (.inr (.inr hzero))
    exact isFinite_of_absLePow2 (absLePow2_mcCamyCubic (absLePow2_cctRatio ⟨x, hx, by simpa using hbound⟩ hy hden))

/-! ### The reference semantics -/

section Exact
variable {K : Type} [Field K] [LinearOrder K]

@[simp] theorem exact_zero : (Fp.exact K).zero = 0 := rfl
@[simp] theorem exact_fadd (a b : K) : (Fp.exact K).fadd a b = a + b := rfl
@[simp] theorem exact_fsub (a b : K) : (Fp.exact K).fsub a b = a - b := rfl
@[simp] theorem exact_fmul (a b : K) : (Fp.exact K).fmul a b = a * b := rfl
@[simp] theorem exact_feq (a b : K) : (Fp.exact K).feq a b = decide (a = b) := rfl
@[simp] theorem exact_finite (a : K) : (Fp.exact K).finite a = true := rfl
@[simp] theorem exact_ofnat (n : Nat) : (Fp.exact K).ofnat n = (n : K) := rfl
@[simp] theorem exact_ofdec (n places : Nat) : (Fp.exact K).ofdec n places = (n : K) / 10 ^ places := rfl

theorem weightedSum_exact (c w : Quad K) :
    weightedSum (Fp.exact K) c w = c.c0 * w.c0 + c.c1 * w.c1 + c.c2 * w.c2 + c.c3 * w.c3 := rfl

theorem mcCamyCubic_exact (n : K) :
    mcCamyCubic (Fp.exact K) n = 437 * n ^ 3 + 3601 * n ^ 2 + 6861 * n + 5517 := by
  simp only [mcCamyCubic, exact_fadd, exact_fmul, exact_ofnat, Nat.cast_ofNat]
  ring

end Exact

theorem mcCamyX_exact : mcCamyX (Fp.exact ℝ) = 0.3320 := by
  norm_num [mcCamyX]

theorem mcCamyY_exact : mcCamyY (Fp.exact ℝ) = 0.1858 := by
  norm_num [mcCamyY]

theorem weightedSum_exact_smul {c c' w : Quad ℝ} {a : ℝ} (h0 : c'.c0 = a * c.c0) (h1 : c'.c1 = a * c.c1)
    (h2 : c'.c2 = a * c.c2) (h3 : c'.c3 = a * c.c3) : weightedSum (Fp.exact ℝ) c' w = a * weightedSum (Fp.exact ℝ) c w := by
  rw [weightedSum_exact, weightedSum_exact, h0, h1, h2, h3]
  ring

/-- Settles O53: each column is a weighted sum of the codes, and a factor of all codes comes out of it. -/
theorem referenceTransformIsLinear : Obligations.ReferenceTransformIsLinear := by
  refine fun M ch => ⟨⟨rfl, rfl, rfl, rfl⟩, fun a ch' h0 h1 h2 h3 => ?_⟩
  have hsum : ∀ w, weightedSum (Fp.exact ℝ) (codeValues (Fp.exact ℝ) ch') w =
      a * weightedSum (Fp.exact ℝ) (codeValues (Fp.exact ℝ) ch) w := fun w => by
    refine weightedSum_exact_smul ?_ ?_ ?_ ?_ <;> simp [codeValues, h0, h1, h2, h3]
  rw [matmul]
  simp only [hsum]
  rfl

/-- Settles O54: over the reals the comparison is the order, and the three quotients share the sum as denominator. -/
theorem referenceColor : Obligations.ReferenceColor := by
  intro M narrow32 ch P t
  refine ⟨fun hsum => ?_, fun hsum => ?_⟩
  · rw [colorResponse_of_not_gt P (decide_eq_false (not_lt.mpr hsum))]
    rfl
  · have hcolor := colorResponse_of_gt P (ch := ch) (decide_eq_true hsum)
    refine ⟨hcolor, ?_⟩
    rw [hcolor]
    change t.x / (t.x + t.y + t.z) + t.y / (t.x + t.y + t.z) + t.z / (t.x + t.y + t.z) = 1
    rw [← add_div, ← add_div, div_self hsum.ne']

/-- Settles O55: over the reals every value is finite, so only the two zeros and the zero denominator are left. -/
theorem referenceCct : Obligations.ReferenceCct := by
  intro M narrow32 cx cy P n
  have hundef : ChromaUndefined P.fp cx cy ↔ (cx = 0 ∧ cy = 0) ∨ cy = 0.1858 := by
    rw [ChromaUndefined, cctDenominator, mcCamyY_exact]
    simp [P, bothZero, sub_eq_zero, @eq_comm ℝ 0.1858]
  refine ⟨fun h => cctResponse_of_undefined P (hundef.mpr h), fun hzero hy => ?_⟩
  rw [cctResponse_of_defined P (mt hundef.mp (not_or.mpr ⟨hzero, hy⟩)), mcCamyCubic_exact, cctRatio, cctDenominator,
    mcCamyX_exact, mcCamyY_exact]
  rfl

end Sys2Proof
end

section
/-! The exceptions family of the obligations (spec file 60): what a step can refuse (O18), which steps complete (O19), the status of
each operation (O20), and the latch between requests (O16). -/

namespace Sys2Proof

open Sys2Proof.Machine Sys2Proof.Safety

/-! ### The refusals of a step -/

/-- A refused line holds a number or a copied field that does not fit, or a buffer of another size (D28, D37). -/
theorem exists_misfit_of_applySettings_error {rsp : Response Fp64} {r : Request Fp64} {xs : List Setting} {why : Refusal}
    (h : applySettings rsp r xs = .error why) :
    (∃ f n, why = .operandOutOfRange f n ∧ 2 ^ f.width ≤ n ∧
        (.num f n ∈ xs ∨ ∃ src, .copy f src ∈ xs ∧ rsp.int src = n)) ∨
    ∃ bytes, why = .frameSize bytes.length ∧ bytes.length ≠ 16 ∧ .buffer bytes ∈ xs := by
  obtain ⟨x, hx, r', hr'⟩ := applySettings_error h
  rcases applySetting_error hr' with ⟨f, n, hwhy, hn, rfl | ⟨src, rfl, hsrc⟩⟩ | ⟨bytes, hwhy, hlen, rfl⟩
  · exact .inl ⟨f, n, hwhy, hn, .inl hx⟩
  · exact .inl ⟨f, n, hwhy, hn, .inr ⟨src, hx, hsrc⟩⟩
  · exact .inr ⟨bytes, hwhy, hlen, hx⟩

theorem issue_ne_refused (r : Request Fp64) (s : State) (why : Refusal) : issue r s ≠ .refused why := by
  simp [issue, exec_decode]

/-- Everything a step can refuse: a line one of whose settings is refused, and the two overlaps (D1, D32). -/
theorem step_refused_cases {s : State} {why : Refusal} (h : step s = .refused why) :
    ∃ a rest, s.host = a :: rest ∧
      ((∃ op xs, a = .line op xs ∧ applySettings s.rsp (blankRequest op) xs = .error why) ∨
       (∃ q r, a = .overlapRequest q r ∧ why = .overlappingRequests) ∨
       ∃ q, a = .overlapReset q ∧ why = .resetDuringRequest) := by
  unfold step at h
  split at h
  · cases h
  · next a rest hhost =>
    refine ⟨a, rest, hhost, ?_⟩
    cases a with
    | request r => exact absurd h (issue_ne_refused _ _ _)
    | line op xs =>
      simp only [hostAct] at h
      split at h
      · exact absurd h (issue_ne_refused _ _ _)
      · next hxs => cases h; exact .inl ⟨op, xs, rfl, hxs⟩
    | skipUnlessOk n => cases h
    | reset => cases h
    | readRsp => cases h
    | overlapRequest q r => cases h; exact .inr (.inl ⟨q, r, rfl, rfl⟩)
    | overlapReset q => cases h; exact .inr (.inr ⟨q, rfl, rfl⟩)

theorem step_overlapRequest {s : State} {q r : Request Fp64} {rest : List HostAction}
    (h : s.host = .overlapRequest q r :: rest) : step s = .refused .overlappingRequests := by
  rw [step, h]
  rfl

/-- Settles O18: no fault exists, and a refused line is refused for one of its settings. -/
theorem noFaultAndNoRequestRefused : Obligations.NoFaultAndNoRequestRefused := by
  refine ⟨fun s => ⟨nofun, fun why h => ?_⟩, fun _ _ _ _ => step_overlapRequest⟩
  obtain ⟨a, rest, hhost, ⟨op, xs, ha, hxs⟩ | hoverlap⟩ := step_refused_cases h
  · exact ⟨a, rest, hhost, .inl ⟨op, xs, ha, exists_misfit_of_applySettings_error hxs⟩⟩
  · exact ⟨a, rest, hhost, .inr hoverlap⟩

/-! ### The actions that complete -/

/-- Well-formed settings that copy nothing too wide give a request: each misfit for which a line is refused is excluded. -/
theorem applySettings_ne_error_of_fit {rsp : Response Fp64} {r : Request Fp64} {xs : List Setting} {why : Refusal}
    (hwf : xs.all Setting.wellFormed = true) (hcopies : copiesFit rsp xs) : applySettings rsp r xs ≠ .error why := by
  intro h
  have hfits : ∀ x ∈ xs, x.wellFormed = true := List.all_eq_true.mp hwf
  rcases exists_misfit_of_applySettings_error h with ⟨f, n, -, hn, hnum | ⟨src, hcopy, rfl⟩⟩ | ⟨bytes, -, hlen, hbuffer⟩
  · exact absurd (of_decide_eq_true (hfits _ hnum)) hn.not_gt
  · exact absurd (hcopies f src hcopy) hn.not_gt
  · exact hlen (eq_of_beq (hfits _ hbuffer))

theorem step_ne_refused_of_wellFormed {s : State} {a : HostAction} {rest : List HostAction} {why : Refusal}
    (hhost : s.host = a :: rest) (hwf : a.wellFormed = true)
    (hcopies : ∀ op xs, a = .line op xs → copiesFit s.rsp xs) : step s ≠ .refused why := by
  intro h
  obtain ⟨a', rest', hhost', hcase⟩ := step_refused_cases h
  obtain ⟨rfl, rfl⟩ := List.cons.inj (hhost.symm.trans hhost')
  rcases hcase with ⟨op, xs, rfl, hxs⟩ | ⟨q, r, rfl, -⟩ | ⟨q, rfl, -⟩
  · exact applySettings_ne_error_of_fit hwf (hcopies op xs rfl) hxs
  · cases hwf
  · cases hwf

/-- A step that completes on an action which issues a request has run an instruction (R23). -/
theorem exists_exec_of_issuesRequest {s t : State} {a : HostAction} {rest : List HostAction} (hhost : s.host = a :: rest)
    (hissue : issuesRequest a = true) (h : step s = .next t) : ∃ i, exec i { s with host := rest } = .next t := by
  rcases step_next_cases h with ⟨hnil, -⟩ | ⟨a', rest', hhost', hcase⟩
  · cases hhost.symm.trans hnil
  · obtain ⟨rfl, rfl⟩ := List.cons.inj (hhost.symm.trans hhost')
    rcases hcase with hexec | ⟨n, rfl, -⟩ | ⟨rfl, -⟩ | ⟨rfl, -⟩
    · exact hexec
    all_goals cases hissue

/-- Settles O19: the step does not refuse and cannot fault, so it answers a next state. -/
theorem wellFormedActionsComplete : Obligations.WellFormedActionsComplete := by
  intro s a rest hhost hwf hcopies
  cases hstep : step s with
  | next t =>
    exact ⟨t, rfl, stepNeverChangesParameters s t hstep, fun hissue => exists_exec_of_issuesRequest hhost hissue hstep⟩
  | fault f => exact nomatch f
  | refused why => exact absurd hstep (step_ne_refused_of_wellFormed hhost hwf hcopies)

/-! ### The status of each operation -/

/-- Settles O20: each operation that can fail has two responses, one with OK and one with its own error. -/
theorem statusOfEachOperation : Obligations.StatusOfEachOperation := by
  intro i s t h
  cases i <;> cases h
  case verify e m c k =>
    exact (verifyResponse_cases s.params e m c k).imp (congrArg Response.status) (congrArg Response.status)
  case channels frame =>
    exact (channelsResponse_cases s.params frame).imp (congrArg Response.status) (congrArg Response.status)
  case color ch =>
    exact (colorResponse_cases s.params ch).imp (fun ⟨_, _, _, hr⟩ => congrArg Response.status hr) (congrArg Response.status)
  case cct cx cy =>
    exact (cctResponse_cases s.params cx cy).imp (fun ⟨_, hr⟩ => congrArg Response.status hr) (congrArg Response.status)
  all_goals rfl

/-! ### Between requests -/

theorem step_of_host_nil {s : State} (h : s.host = []) : step s = .next s := by
  rw [step, h]

theorem step_readRsp {s : State} {rest : List HostAction} (h : s.host = .readRsp :: rest) :
    step s = .next { s with host := rest } := by
  rw [step, h]
  rfl

/-- Settles O16: none of these actions is a request, and each only takes actions off the host's list. -/
theorem latchHoldsBetweenRequests : Obligations.LatchHoldsBetweenRequests :=
  ⟨fun _ => step_of_host_nil, fun _ _ => step_readRsp,
    fun _ _ _ h => ⟨step_skipUnlessOk_of_ok h, step_skipUnlessOk_of_ne h⟩⟩

end Sys2Proof
end

section
/-! The reset and hazards family of the obligations (spec file 70): a run of requests is observed as `Exec` of each (O9), the reset
event (O14), and the refusal of an operand that does not fit (O30). -/

namespace Sys2Proof

open Sys2Proof.Machine Sys2Proof.Safety

/-! ### Runs of requests -/

/-- The step of an action that issues a request adds one response to the observation (R102). -/
theorem observe_succ_of_issuesRequest {s t : State} {a : HostAction} {rest : List HostAction} (k : Nat)
    (hhost : s.host = a :: rest) (hissue : issuesRequest a = true) (h : step s = .next t) :
    observe (k + 1) s = t.rsp :: observe k t := by
  simp [observe, hhost, h, hissue]

/-- Settles O9, by induction on the requests: each step latches `Exec` of the first request and keeps the parameters, and the run
of the others goes on from any latch. -/
theorem runObservesExecOfEachRequest : Obligations.RunObservesExecOfEachRequest := by
  intro s rs hhost
  induction rs generalizing s with
  | nil =>
    obtain ⟨rsp, build, host⟩ := s
    cases hhost
    exact ⟨rfl, rfl⟩
  | cons r rs ih =>
    have hstep := stepLatchesExecOfTheRequest s r _ hhost
    obtain ⟨hobserve, hrun⟩ := ih { s with rsp := respond s.params r, host := rs.map .request } rfl
    constructor
    · rw [List.length_cons, observe_succ_of_issuesRequest _ hhost rfl hstep, hobserve]
      rfl
    · rw [List.length_cons, runSteps_succ _ hstep, hrun, List.map_cons, List.getLastD_cons]
      rfl

/-! ### The reset event -/

theorem step_overlapReset {s : State} {r : Request Fp64} {rest : List HostAction}
    (h : s.host = .overlapReset r :: rest) : step s = .refused .resetDuringRequest := by
  rw [step, h]
  rfl

/-- Settles O14: the latch of the reset state is the blank response. -/
theorem resetEventBlanksTheLatch : Obligations.ResetEventBlanksTheLatch :=
  ⟨fun _ _ => step_reset, fun _ _ _ => step_overlapReset⟩

/-! ### The refusal of an operand -/

/-- Settles O30: a number and a copied field are both assigned, and `assign` refuses what does not fit (D28, H-7). -/
theorem outOfRangeOperandIsRefused : Obligations.OutOfRangeOperandIsRefused := by
  intro s op f pre more rest r hpre
  constructor
  · intro n hhost hn
    have hnum : applySetting s.rsp r (.num f n) = .error (.operandOutOfRange f n) := assign_of_ge hn
    exact step_line_error hhost (applySettings_error_of_first more hpre hnum)
  · intro src hhost hsrc
    have hcopy : applySetting s.rsp r (.copy f src) = .error (.operandOutOfRange f (s.rsp.int src)) := assign_of_ge hsrc
    exact step_line_error hhost (applySettings_error_of_first more hpre hcopy)

end Sys2Proof
end
